-- ==== Sys2Proof/Word.lean ====
section
/-! DEFINITION. The word and the widths of an instruction's fields (00_scope.md R6, R9; 30_encoding.md R61). -/

namespace Sys2Proof

/-- A Word: a register, the PC, an ALU operand, a memory word, an instruction (R6). -/
abbrev Word := BitVec 32

/-- A register index; all 32 values are legal (R63). -/
abbrev RegIdx := BitVec 5

/-- The six-bit `opcode` and `functionCode` selectors (R61). -/
abbrev Code6 := BitVec 6

/-- The five-bit `shiftAmount` (R61). -/
abbrev Shamt := BitVec 5

/-- The sixteen-bit `immediate16` (R61). -/
abbrev Imm16 := BitVec 16

end Sys2Proof
end

