-- ==== Sys2Proof/Config.lean ====
section
/-! DEFINITION. The parameters the spec leaves open (00_scope.md R7) and the free values of a fill that
is drawn (92_eei_decisions.md D5). -/

namespace Sys2Proof

/-- ADDI_ALU_SRC: the `aluSrc` value of the addi row in the variant of the engine modelled
(42_imm_alu.md R132; D1; log 2). -/
inductive AddiAluSrc where
  /-- 0: operand B is x[rt]. -/
  | src0
  /-- 1, the printed table's value: operand B is the sign-extended immediate. -/
  | src1
  /-- 2: operand B is the zero-extended immediate. -/
  | src2
deriving DecidableEq, Repr

/-- UNLOADED_FETCH: a fetch of an index the loader did not load (10_state.md R28; D4; log 5). -/
inductive UnloadedFetch where
  /-- The fetch reads 0x00000000, which is inert. -/
  | zero
  /-- The cycle faults. -/
  | fault
deriving DecidableEq, Repr

/-- INIT_FILL_R, INIT_FILL_D: what a location not injected holds after setup (R7; D5; log 6). -/
inductive Fill where
  /-- The same Word in every location. -/
  | word (w : Word)
  /-- A free value for each location. -/
  | draw
deriving DecidableEq, Repr

/-- The free value a register holds at setup under a drawn fill: nothing constrains it (D5; log 6). -/
opaque Config.drawnRegister : Nat → Word

/-- The free value a data-memory word holds at setup under a drawn fill (D5; log 6). -/
opaque Config.drawnData : Nat → Word

/-- The domain of DMEM_ADDR_WIDTH (R7; D8; log 9). -/
abbrev AddrWidth := { w : Nat // 5 ≤ w ∧ w ≤ 32 }

/-- The parameters of R7 that a launch fixes. `N_CYCLES` is an argument of the host's run. -/
structure Params where
  addiAluSrc : AddiAluSrc
  r0Hardwired : Bool
  unloadedFetch : UnloadedFetch
  initFillR : Fill
  initFillD : Fill
  dmemAddrWidth : AddrWidth
deriving DecidableEq, Repr

/-- The defaults of R7. -/
def Params.default : Params :=
  { addiAluSrc := .src1
    r0Hardwired := false
    unloadedFetch := .zero
    initFillR := .word 0
    initFillD := .word 0
    dmemAddrWidth := ⟨32, by decide⟩ }

end Sys2Proof
end

