-- ==== Sys2Proof/Syntax.lean ====
section
/-! DEFINITION. The fields of a word and the instructions, one constructor per row of spec/opcode_table.json. -/

namespace Sys2Proof

/-- The six non-overlapping fields of an instruction word (30_encoding.md R61).
`immediate16` overlaps the last three and is computed from them (`Fields.immediate16`, Decode.lean). -/
structure Fields where
  opcode : Code6
  rs : RegIdx
  rt : RegIdx
  rd : RegIdx
  shiftAmount : Shamt
  functionCode : Code6
deriving DecidableEq, Repr

/-- The instructions (30_encoding.md R64). Every constructor carries EVERY field of its word, those the
instruction ignores (R68) among them, so that no bit is lost between a word and its instruction
(log 23). The names are the spec's; the meanings are not those of MIPS (00_scope.md R2). -/
inductive Instr where
  /-- 41_rtype.md R120; `rt` and `shiftAmount` have no effect. -/
  | add (rs rt rd : RegIdx) (shiftAmount : Shamt)
  /-- 41_rtype.md R121; `rt` and `shiftAmount` have no effect. -/
  | and (rs rt rd : RegIdx) (shiftAmount : Shamt)
  /-- 41_rtype.md R122; `rt` and `shiftAmount` have no effect. -/
  | slt (rs rt rd : RegIdx) (shiftAmount : Shamt)
  /-- 42_imm_alu.md R130. -/
  | addi (rs rt : RegIdx) (imm : Imm16)
  /-- 42_imm_alu.md R131, the source's "lui-like" opcode; `rs` has no effect. -/
  | lui (rs rt : RegIdx) (imm : Imm16)
  /-- 43_memory_ops.md R140. -/
  | lw (rs rt : RegIdx) (imm : Imm16)
  /-- 43_memory_ops.md R141. -/
  | sw (rs rt : RegIdx) (imm : Imm16)
  /-- 44_branch.md R150. -/
  | beq (rs rt : RegIdx) (imm : Imm16)
  /-- 45_inert.md R160: every other word; no field has an effect. -/
  | inert (fields : Fields)
deriving DecidableEq, Repr

/-- Why the loader's text of one word is rejected (70_reset_and_hazards.md R191; D19; log 17). -/
inductive TextReject where
  /-- The text has no digit. -/
  | noDigits
  /-- The text has more than 8 digits (D19: "up to 8 digits. Anything else is refused"). -/
  | tooManyDigits
  /-- The text holds a character that is no base-16 digit. -/
  | notHexDigit
deriving DecidableEq, Repr

end Sys2Proof
end

