-- ==== Sys2Proof/Machine/State.lean ====
section
/-! DEFINITION. The state (10_state.md R20, R31, R33), the ways a step can stop, and the state after reset. -/

namespace Sys2Proof.Machine

/-- Data memory: the words that differ from the fill, as (address, word) pairs, addresses strictly
rising (`Memory.wf`, Ops.lean). The unit is the Word, since no byte exists (20_memory.md R41; log 10). -/
abbrev Memory := List (Nat × Word)

/-- The architectural state. `params` is the launch's parameters, which no step changes (log 1);
`imem` is the loaded program, the word of index k in place k (R28, R191), so IMEM_SIZE is its length. -/
structure State where
  params : Params
  pc : Word
  regs : Vector Word 32
  dmem : Memory
  imem : List Word
  wr : Vector Bool 32
  wd : List Nat
deriving DecidableEq, Repr

/-- The ways a cycle can stop (60_exceptions.md R184). -/
inductive Fault where
  /-- Raised by the fetch of step, only under UNLOADED_FETCH = Fault: `pc` is no loaded index
  (10_state.md R28; D4). Safe: the spec's default goes on with an inert cycle, and a launch that
  sets the parameter asks for the stop (log 5). -/
  | unloadedFetch (pc : Word)
deriving DecidableEq, Repr

/-- The refusals: of an instruction without a meaning, and of a setup (60_exceptions.md R184). -/
inductive Refusal where
  /-- Raised by exec alone, for an instruction not modelled yet (none is). Safe: the run stops. -/
  | notModelled (mnemonic : String)
  /-- Raised by setup: the program is empty (70_reset_and_hazards.md R193; D20). Safe: no cycle runs. -/
  | noInstructions
  /-- Raised by setup: word `index` of the program does not parse (R191; D19). Safe: no cycle runs. -/
  | unparsableWord (index : Nat) (why : TextReject)
  /-- Raised by setup: an injected register index above 31 (R192; D21). Safe: no cycle runs. -/
  | registerIndexOutOfRange (index : Nat)
  /-- Raised by setup: an injected address at or beyond 2^DMEM_ADDR_WIDTH (R192; D21). Safe. -/
  | dataAddressOutOfRange (address : Nat)
  /-- Raised by setup: an injected value of 2^32 or more (R192; D21). Safe: no cycle runs. -/
  | valueOutOfRange (value : Nat)
deriving DecidableEq, Repr

/-- The state of 10_state.md R32 with the default parameters, no injection, and nothing loaded yet:
a program is loaded from outside the machine (R190, R191; log 16). -/
def State.reset : State :=
  { params := Params.default
    pc := 0
    regs := Vector.replicate 32 0
    dmem := []
    imem := []
    wr := Vector.replicate 32 false
    wd := [] }

end Sys2Proof.Machine
end

