-- ==== Sys2Proof/Machine/Flags.lean ====
section
/-! DEFINITION. The ALU (40_datapath.md R94 to R103): its result and its zero flag.
The engine has no architected flags (10_state.md R26); `aluZeroFlag` is a value of the cycle. -/

namespace Sys2Proof.Machine

/-- The ALU's result, modulo 2^32, with no trap (R94, R103).
- 0 addition (R95), 1 and (R96), 2 or, which no row selects (R97; log 24), 3 subtraction (R98);
- 4 reversed unsigned less-than, `B < A` (R99); 5 left shift of B by shiftAmount (R100);
- 6 and 7 are never selected; the spec's value is 0 (R101; D12; log 14). -/
def aluResult (aluOp : BitVec 3) (a b : Word) (shiftAmount : Shamt) : Word :=
  match aluOp.toNat with
  | 0 => a + b
  | 1 => a &&& b
  | 2 => a ||| b
  | 3 => a - b
  | 4 => if b.toNat < a.toNat then 1 else 0
  | 5 => b <<< shiftAmount.toNat
  | _ => 0

/-- The zero flag: of the subtraction only (R98); 0 for every other operation (R102; D11; log 13). -/
def aluZeroFlag (aluOp : BitVec 3) (a b : Word) : Bool :=
  decide (aluOp = 3) && decide (a - b = 0)

end Sys2Proof.Machine
end

