-- ==== Sys2Proof/WellFormed.lean ====
section
/-! DEFINITION. Which terms of `Instr` stand for a word: all, but an `inert` whose codes select a row. -/

namespace Sys2Proof

/-- The opcode and function code select none of the eight instructions (45_inert.md R160, "Encoding").
The function code is consulted under opcode 0x00 only (30_encoding.md R64, R65). -/
def Fields.selectsNoRow (f : Fields) : Bool :=
  if f.opcode = 0x00 then !([0x20, 0x24, 0x2A].contains f.functionCode)
  else !([0x04, 0x08, 0x0F, 0x23, 0x2B].contains f.opcode)

/-- The one check: an inert instruction's codes select no row (R160).
Every register index, shift amount and immediate of the other constructors is legal (R63, R66). -/
def Instr.wellFormed : Instr → Bool
  | .add _ _ _ _ => true
  | .and _ _ _ _ => true
  | .slt _ _ _ _ => true
  | .addi _ _ _ => true
  | .lui _ _ _ => true
  | .lw _ _ _ => true
  | .sw _ _ _ => true
  | .beq _ _ _ => true
  | .inert f => f.selectsNoRow

/-- `wellFormed` as a proposition. -/
abbrev Instr.WellFormed (i : Instr) : Prop := i.wellFormed = true

end Sys2Proof
end

