-- ==== Sys2Proof/Decode.lean ====
section
/-! DEFINITION. The decoder (total: every word decodes, 30_encoding.md R60, R66), the encoder, and the
base-16 text of a word that the loader reads (70_reset_and_hazards.md R191). -/

namespace Sys2Proof

/-! ### Fields (R61, R82) -/

/-- `immediate16 = rd ++ shiftAmount ++ functionCode` (R61). -/
def Fields.immediate16 (f : Fields) : Imm16 := f.rd ++ f.shiftAmount ++ f.functionCode

/-- The fields of a word with an immediate: bits 15 to 0 are the immediate's (R61). -/
def Fields.ofImm (opcode : Code6) (rs rt : RegIdx) (imm : Imm16) : Fields :=
  { opcode := opcode, rs := rs, rt := rt, rd := imm.extractLsb' 11 5,
    shiftAmount := imm.extractLsb' 6 5, functionCode := imm.extractLsb' 0 6 }

/-- The InstructionDecoder: all fields of every word at once, with no check (R60, R82, R83). -/
def decodeFields (w : Word) : Fields :=
  { opcode := w.extractLsb' 26 6
    rs := w.extractLsb' 21 5
    rt := w.extractLsb' 16 5
    rd := w.extractLsb' 11 5
    shiftAmount := w.extractLsb' 6 5
    functionCode := w.extractLsb' 0 6 }

/-! ### Decoding (R64) -/

/-- The row a word selects: by `functionCode` under opcode 0x00, else by `opcode` alone; every
other pair is inert (R64 to R66, R86). -/
def selectInstr (f : Fields) : Instr :=
  if f.opcode = 0x00 then
    if f.functionCode = 0x20 then .add f.rs f.rt f.rd f.shiftAmount
    else if f.functionCode = 0x24 then .and f.rs f.rt f.rd f.shiftAmount
    else if f.functionCode = 0x2A then .slt f.rs f.rt f.rd f.shiftAmount
    else .inert f
  else if f.opcode = 0x08 then .addi f.rs f.rt f.immediate16
  else if f.opcode = 0x0F then .lui f.rs f.rt f.immediate16
  else if f.opcode = 0x23 then .lw f.rs f.rt f.immediate16
  else if f.opcode = 0x2B then .sw f.rs f.rt f.immediate16
  else if f.opcode = 0x04 then .beq f.rs f.rt f.immediate16
  else .inert f

/-- Decoding is total: no word is rejected (R60, R66, R172). -/
def decode (w : Word) : Instr := selectInstr (decodeFields w)

/-- The host's reading of a table row: `nbits` bits of `w`, zero above them. An instruction is one
32-bit word (R60, R67), so a longer row is none (log 28). -/
def decodeTableWord (nbits w : Nat) : Option Instr :=
  if 32 < nbits then none
  else some (decode (BitVec.ofNat 32 (w % 2 ^ nbits)))

/-! ### Encoding -/

/-- The bit picture of R61, most significant field first. -/
def Fields.encode (f : Fields) : Word :=
  f.opcode ++ f.rs ++ f.rt ++ f.rd ++ f.shiftAmount ++ f.functionCode

/-- The fields of an instruction: its row's codes (R64) and its own operands. -/
def Instr.fields : Instr → Fields
  | .add rs rt rd sh => ⟨0x00, rs, rt, rd, sh, 0x20⟩
  | .and rs rt rd sh => ⟨0x00, rs, rt, rd, sh, 0x24⟩
  | .slt rs rt rd sh => ⟨0x00, rs, rt, rd, sh, 0x2A⟩
  | .addi rs rt imm => Fields.ofImm 0x08 rs rt imm
  | .lui rs rt imm => Fields.ofImm 0x0F rs rt imm
  | .lw rs rt imm => Fields.ofImm 0x23 rs rt imm
  | .sw rs rt imm => Fields.ofImm 0x2B rs rt imm
  | .beq rs rt imm => Fields.ofImm 0x04 rs rt imm
  | .inert f => f

/-- The word of an instruction. -/
def encode (i : Instr) : Word := i.fields.encode

/-! ### The loader's text of a word (R191; D19; log 17) -/

/-- The value of a base-16 digit. Both cases are read (DESIGN CHOICE, log 17). -/
def hexDigit (c : Char) : Option Nat :=
  if '0' ≤ c ∧ c ≤ '9' then some (c.toNat - '0'.toNat)
  else if 'a' ≤ c ∧ c ≤ 'f' then some (c.toNat - 'a'.toNat + 10)
  else if 'A' ≤ c ∧ c ≤ 'F' then some (c.toNat - 'A'.toNat + 10)
  else none

/-- Digits read most significant first, `acc` being the value of those already read. -/
def hexValue : Nat → List Char → Option Nat
  | acc, [] => some acc
  | acc, c :: cs =>
    match hexDigit c with
    | some d => hexValue (16 * acc + d) cs
    | none => none

/-- One word of the program text: 1 to 8 base-16 digits, most significant first (R191, D19). -/
def parseWordText (text : List Char) : Except TextReject Word :=
  if text = [] then .error .noDigits
  else
    match hexValue 0 text with
    | none => .error .notHexDigit
    | some v => if 8 < text.length then .error .tooManyDigits else .ok (BitVec.ofNat 32 v)

/-- The character of a digit, in capitals as the spec writes its words. -/
def hexChar (d : Nat) : Char :=
  if d < 10 then Char.ofNat ('0'.toNat + d) else Char.ofNat ('A'.toNat + (d - 10))

/-- The last `n` base-16 digits of `v`, most significant first. -/
def hexDigits : Nat → Nat → List Char
  | 0, _ => []
  | n + 1, v => hexDigits n (v / 16) ++ [hexChar (v % 16)]

/-- The eight-digit text of a word. -/
def wordText (w : Word) : List Char := hexDigits 8 w.toNat

end Sys2Proof
end

