-- ==== Sys2Proof/Machine/Control.lean ====
section
/-! DEFINITION. The ControlUnit (40_datapath.md R84 to R88): the control table, row by row. -/

namespace Sys2Proof.Machine

/-- The control bundle (10_state.md R30). It is recomputed every cycle and is no state. -/
structure ControlSignals where
  aluOp : BitVec 3
  /-- Decoded and read by nothing (R88; log 12). -/
  memToReg : Bool
  memWrite : Bool
  aluSrc : BitVec 2
  regWrite : Bool
  branchEnable : Bool
  regDstSelectsRd : Bool
deriving DecidableEq, Repr

/-- The `aluSrc` value of the addi row (R87; 42_imm_alu.md R132). -/
def addiAluSrcCode : AddiAluSrc → BitVec 2
  | .src0 => 0
  | .src1 => 1
  | .src2 => 2

/-! ### The rows of R85 -/

def rowAdd : ControlSignals :=
  { aluOp := 0, memToReg := false, memWrite := false, aluSrc := 0, regWrite := true,
    branchEnable := false, regDstSelectsRd := true }

def rowAnd : ControlSignals :=
  { aluOp := 1, memToReg := false, memWrite := false, aluSrc := 0, regWrite := true,
    branchEnable := false, regDstSelectsRd := true }

def rowSlt : ControlSignals :=
  { aluOp := 4, memToReg := false, memWrite := false, aluSrc := 0, regWrite := true,
    branchEnable := false, regDstSelectsRd := true }

def rowAddi (p : Params) : ControlSignals :=
  { aluOp := 0, memToReg := false, memWrite := false, aluSrc := addiAluSrcCode p.addiAluSrc,
    regWrite := true, branchEnable := false, regDstSelectsRd := false }

def rowLui : ControlSignals :=
  { aluOp := 5, memToReg := false, memWrite := false, aluSrc := 2, regWrite := true,
    branchEnable := false, regDstSelectsRd := false }

def rowLw : ControlSignals :=
  { aluOp := 0, memToReg := true, memWrite := false, aluSrc := 1, regWrite := true,
    branchEnable := false, regDstSelectsRd := false }

/-- The source prints sw's memToReg as "—"; the spec's table has 0 (R85; D10; log 12). -/
def rowSw : ControlSignals :=
  { aluOp := 0, memToReg := false, memWrite := true, aluSrc := 1, regWrite := false,
    branchEnable := false, regDstSelectsRd := false }

def rowBeq : ControlSignals :=
  { aluOp := 3, memToReg := false, memWrite := false, aluSrc := 1, regWrite := false,
    branchEnable := true, regDstSelectsRd := false }

/-- The all-zero bundle (R86). -/
def rowInert : ControlSignals :=
  { aluOp := 0, memToReg := false, memWrite := false, aluSrc := 0, regWrite := false,
    branchEnable := false, regDstSelectsRd := false }

/-- The ControlUnit: the bundle as a function of (opcode, functionCode), with a default
(R84 to R86; 30_encoding.md R64). -/
def controlUnit (p : Params) (opcode functionCode : Code6) : ControlSignals :=
  if opcode = 0x00 then
    if functionCode = 0x20 then rowAdd
    else if functionCode = 0x24 then rowAnd
    else if functionCode = 0x2A then rowSlt
    else rowInert
  else if opcode = 0x08 then rowAddi p
  else if opcode = 0x0F then rowLui
  else if opcode = 0x23 then rowLw
  else if opcode = 0x2B then rowSw
  else if opcode = 0x04 then rowBeq
  else rowInert

end Sys2Proof.Machine
end

