-- ==== Sys2Proof/Machine/Ops.lean ====
section
/-! DEFINITION. The named operations over the register file, the data memory, the written-sets and the
instruction memory. Every read and write of State goes through these.

The engine takes no exception and has no return from one (60_exceptions.md R170, R176, R177), so there
is no such operation here; the one stop is `fetch`'s, under UNLOADED_FETCH = Fault (R184). -/

namespace Sys2Proof.Machine

/-! ### Fills (10_state.md R32; D5) -/

/-- What register `i` holds after setup where it is not injected (INIT_FILL_R). -/
def fillReg (p : Params) (i : Nat) : Word :=
  match p.initFillR with
  | .word w => w
  | .draw => Config.drawnRegister i

/-- What data-memory word `a` holds after setup where it is not injected (INIT_FILL_D): what an
address that `dmem` does not list reads as. -/
def fillData (p : Params) (a : Nat) : Word :=
  match p.initFillD with
  | .word w => w
  | .draw => Config.drawnData a

/-! ### Sparse data memory -/

/-- The word listed at `a`. -/
def Memory.lookup (a : Nat) : Memory → Option Word
  | [] => none
  | (k, v) :: m => if k = a then some v else Memory.lookup a m

/-- `m` without address `a`. -/
def Memory.erase (a : Nat) : Memory → Memory
  | [] => []
  | (k, v) :: m => if k = a then Memory.erase a m else (k, v) :: Memory.erase a m

/-- `m` with the word `v` at `a`, placed before the first higher address. -/
def Memory.insert (a : Nat) (v : Word) : Memory → Memory
  | [] => [(a, v)]
  | (k, u) :: m => if a < k then (a, v) :: (k, u) :: m else (k, u) :: Memory.insert a v m

/-- The word at `a`: the one listed, else the fill. -/
def Memory.read (fill : Nat → Word) (m : Memory) (a : Nat) : Word :=
  (Memory.lookup a m).getD (fill a)

/-- `m` after the word `v` is written at `a`. Writing the fill removes the entry, so that equal
contents are equal lists. -/
def Memory.write (fill : Nat → Word) (m : Memory) (a : Nat) (v : Word) : Memory :=
  if v = fill a then Memory.erase a m else Memory.insert a v (Memory.erase a m)

/-- The canonical form from address `lo` on: addresses strictly rising, no entry equal to the fill. -/
def Memory.wfFrom (fill : Nat → Word) : Nat → Memory → Bool
  | _, [] => true
  | lo, (k, v) :: m => decide (lo ≤ k) && decide (v ≠ fill k) && Memory.wfFrom fill (k + 1) m

/-- The canonical form of data memory. -/
def Memory.wf (fill : Nat → Word) (m : Memory) : Bool := Memory.wfFrom fill 0 m

/-! ### Address sets (WD, 10_state.md R31) -/

/-- `l` with `a` in it once, in rising order. -/
def insertKey (a : Nat) : List Nat → List Nat
  | [] => [a]
  | k :: l => if a < k then a :: k :: l else if a = k then k :: l else k :: insertKey a l

/-- Strictly rising from `lo` on. -/
def risingFrom : Nat → List Nat → Bool
  | _, [] => true
  | lo, k :: l => decide (lo ≤ k) && risingFrom (k + 1) l

/-! ### Registers -/

/-- Register `r` is register 0 and R0_HARDWIRED is set (R110). -/
def hardwiredZero (p : Params) (r : RegIdx) : Bool := p.r0Hardwired && decide (r = 0)

/-- A read of register `r`: the value stored in it; 0 for register 0 where R0_HARDWIRED is set
(10_state.md R23; 40_datapath.md R110). -/
def State.readReg (s : State) (r : RegIdx) : Word :=
  if hardwiredZero s.params r then 0 else s.regs[r.toNat]'(r.isLt)

/-- A register write and its place in WR (40_datapath.md R108; 10_state.md R31). Register 0 is
written like any other; under R0_HARDWIRED its write is suppressed and still enters WR (R110;
95_test_vectors.md L1-1; log 3). -/
def State.writeReg (s : State) (r : RegIdx) (v : Word) : State :=
  { s with
    regs := if hardwiredZero s.params r then s.regs else s.regs.set r.toNat v r.isLt
    wr := s.wr.set r.toNat true r.isLt }

/-- Register `r` is in WR. -/
def State.regWritten (s : State) (r : RegIdx) : Bool := s.wr[r.toNat]'(r.isLt)

/-! ### Data memory -/

/-- `MemRead(a, 1)`: the word of data memory at `a` (00_scope.md R10). Only the host's inspection
uses it (20_memory.md R46). -/
def State.readData (s : State) (a : Nat) : Word := Memory.read (fillData s.params) s.dmem a

/-- `MemWrite(a, 1, v)` and its place in WD (40_datapath.md R109; 10_state.md R31). -/
def State.writeData (s : State) (a : Nat) (v : Word) : State :=
  { s with
    dmem := Memory.write (fillData s.params) s.dmem a v
    wd := insertKey a s.wd }

/-- Address `a` is in WD. -/
def State.dataWritten (s : State) (a : Nat) : Bool := s.wd.contains a

/-! ### Instruction memory -/

/-- IMEM_SIZE (00_scope.md R7): the number of loaded words. -/
def State.imemSize (s : State) : Nat := s.imem.length

/-- `IMemRead(pc)` (10_state.md R28): the loaded word, or for any other index 0x00000000 or a fault,
as UNLOADED_FETCH says (log 5). -/
def State.fetch (s : State) : Except Fault Word :=
  match s.imem[s.pc.toNat]? with
  | some w => .ok w
  | none =>
    match s.params.unloadedFetch with
    | .zero => .ok 0x00000000
    | .fault => .error (.unloadedFetch s.pc)

/-- `l` with `v` at place `n`, zero words filling up to it where it is shorter. -/
def setPadded (l : List Word) (n : Nat) (v : Word) : List Word :=
  if n < l.length then l.set n v else l ++ List.replicate (n - l.length) 0 ++ [v]

end Sys2Proof.Machine
end

