-- ==== Sys2Proof/Machine/Operands.lean ====
section
/-! DEFINITION. The OperandSelector (40_datapath.md R89 to R93; 30_encoding.md R62, R63). -/

namespace Sys2Proof.Machine

/-- `sext_32` (00_scope.md R10). -/
def sext32 (v : Imm16) : Word := v.signExtend 32

/-- `zext_32` (00_scope.md R10). -/
def zext32 (v : Imm16) : Word := v.zeroExtend 32

/-- The register-file write index, read-port-2 index and data-memory write address (R89). -/
def destinationRegister (c : ControlSignals) (f : Fields) : RegIdx :=
  if c.regDstSelectsRd then f.rd else f.rt

/-- Operand A: read port 1 (R90). -/
def operandA (f : Fields) (s : State) : Word := s.readReg f.rs

/-- The base value of operand B: read port 2, at destinationRegister and not at rt (R91). -/
def operandBBase (c : ControlSignals) (f : Fields) (s : State) : Word :=
  s.readReg (destinationRegister c f)

/-- Operand B (R92). aluSrc 3 is never produced; the spec keeps the base value (D13; log 14). -/
def operandB (c : ControlSignals) (f : Fields) (s : State) : Word :=
  match c.aluSrc.toNat with
  | 0 => operandBBase c f s
  | 1 => if c.branchEnable then operandBBase c f s else sext32 f.immediate16
  | 2 => zext32 f.immediate16
  | _ => operandBBase c f s

/-- The branch offset, driven in every cycle (R93; D14; log 15). -/
def branchOffset (f : Fields) : Word := sext32 f.immediate16

end Sys2Proof.Machine
end

