-- ==== Sys2Proof/Machine/Cycle.lean ====
section
/-! DEFINITION. The SequencingUnit, the WritebackUnit, and one cycle of the datapath under a control
row (40_datapath.md R80, R104 to R112). Every read in a cycle is of the pre-cycle state
(00_scope.md R11; 20_memory.md R53). -/

namespace Sys2Proof.Machine

/-- The next PC, modulo 2^32 (R105; D6; log 7). -/
def nextPc (pc : Word) (branchEnable zeroFlag : Bool) (offset : Word) : Word :=
  if branchEnable && zeroFlag then pc + offset + 1 else pc + 1

/-- The WritebackUnit: the two write gates at `destinationRegister` (R107 to R109). The data-memory
address is the five-bit index itself, widened; it is in range at every DMEM_ADDR_WIDTH (R173). -/
def writeback (c : ControlSignals) (dst : RegIdx) (result : Word) (s : State) : State :=
  let s := if c.regWrite then s.writeReg dst result else s
  if c.memWrite then s.writeData dst.toNat result else s

/-- One cycle after the fetch, for a word with fields `f` under the control row `c` (R112). -/
def cycle (c : ControlSignals) (f : Fields) (s : State) : State :=
  let dst := destinationRegister c f
  let a := operandA f s
  let b := operandB c f s
  let result := aluResult c.aluOp a b f.shiftAmount
  let zeroFlag := aluZeroFlag c.aluOp a b
  { writeback c dst result s with pc := nextPc s.pc c.branchEnable zeroFlag (branchOffset f) }

end Sys2Proof.Machine
end

