-- ==== Sys2Proof/Machine/Branch.lean ====
section
/-! DEFINITION. beq (44_branch.md): the datapath's cycle under its row of R85. -/

namespace Sys2Proof.Machine

/-- R150: pc <- pc + sext(imm) + 1 if x[rs] = x[rt], else pc + 1. -/
def execBeq (rs rt : RegIdx) (imm : Imm16) (s : State) : Host.Outcome State Fault Refusal :=
  .next (cycle rowBeq (Fields.ofImm 0x04 rs rt imm) s)

end Sys2Proof.Machine
end

