-- ==== Sys2Proof/Machine/ImmAlu.lean ====
section
/-! DEFINITION. addi, lui (42_imm_alu.md): each is the datapath's cycle under its row of R85. -/

namespace Sys2Proof.Machine

/-- R130, R132: x[rt] <- x[rs] + B, where ADDI_ALU_SRC selects B. -/
def execAddi (rs rt : RegIdx) (imm : Imm16) (s : State) : Host.Outcome State Fault Refusal :=
  .next (cycle (rowAddi s.params) (Fields.ofImm 0x08 rs rt imm) s)

/-- R131: x[rt] <- zext(imm) shifted left by the immediate's own bits 10 to 6. -/
def execLui (rs rt : RegIdx) (imm : Imm16) (s : State) : Host.Outcome State Fault Refusal :=
  .next (cycle rowLui (Fields.ofImm 0x0F rs rt imm) s)

end Sys2Proof.Machine
end

