-- ==== Sys2Proof/Machine/Inert.lean ====
section
/-! DEFINITION. Every word that selects no row (45_inert.md): the datapath's cycle under the all-zero row. -/

namespace Sys2Proof.Machine

/-- R160: pc <- pc + 1 and nothing else. -/
def execInert (f : Fields) (s : State) : Host.Outcome State Fault Refusal :=
  .next (cycle rowInert f s)

end Sys2Proof.Machine
end

