-- ==== Sys2Proof/Machine/MemoryOps.lean ====
section
/-! DEFINITION. lw, sw (43_memory_ops.md): each is the datapath's cycle under its row of R85. -/

namespace Sys2Proof.Machine

/-- R140: x[rt] <- x[rs] + sext(imm); no memory is read. -/
def execLw (rs rt : RegIdx) (imm : Imm16) (s : State) : Host.Outcome State Fault Refusal :=
  .next (cycle rowLw (Fields.ofImm 0x23 rs rt imm) s)

/-- R141: D[rt] <- x[rs] + sext(imm), the address being the rt field itself. -/
def execSw (rs rt : RegIdx) (imm : Imm16) (s : State) : Host.Outcome State Fault Refusal :=
  .next (cycle rowSw (Fields.ofImm 0x2B rs rt imm) s)

end Sys2Proof.Machine
end

