-- ==== Sys2Proof/Machine/RType.lean ====
section
/-! DEFINITION. add, and, slt (41_rtype.md): each is the datapath's cycle under its row of R85. -/

namespace Sys2Proof.Machine

/-- R120: x[rd] <- x[rs] + x[rd]. -/
def execAdd (rs rt rd : RegIdx) (shiftAmount : Shamt) (s : State) : Host.Outcome State Fault Refusal :=
  .next (cycle rowAdd ⟨0x00, rs, rt, rd, shiftAmount, 0x20⟩ s)

/-- R121: x[rd] <- x[rs] & x[rd]. -/
def execAnd (rs rt rd : RegIdx) (shiftAmount : Shamt) (s : State) : Host.Outcome State Fault Refusal :=
  .next (cycle rowAnd ⟨0x00, rs, rt, rd, shiftAmount, 0x24⟩ s)

/-- R122: x[rd] <- 1 if x[rd] is below x[rs], unsigned, else 0. -/
def execSlt (rs rt rd : RegIdx) (shiftAmount : Shamt) (s : State) : Host.Outcome State Fault Refusal :=
  .next (cycle rowSlt ⟨0x00, rs, rt, rd, shiftAmount, 0x2A⟩ s)

end Sys2Proof.Machine
end

