-- ==== Sys2Proof/Machine/Dispatch.lean ====
section
/-! DEFINITION. The meaning of each instruction: one arm per constructor. -/

namespace Sys2Proof.Machine

def exec (i : Instr) (s : State) : Host.Outcome State Fault Refusal :=
  match i with
  | .add rs rt rd shiftAmount => Sys2Proof.Machine.execAdd rs rt rd shiftAmount s
  | .and rs rt rd shiftAmount => Sys2Proof.Machine.execAnd rs rt rd shiftAmount s
  | .slt rs rt rd shiftAmount => Sys2Proof.Machine.execSlt rs rt rd shiftAmount s
  | .addi rs rt imm => Sys2Proof.Machine.execAddi rs rt imm s
  | .lui rs rt imm => Sys2Proof.Machine.execLui rs rt imm s
  | .lw rs rt imm => Sys2Proof.Machine.execLw rs rt imm s
  | .sw rs rt imm => Sys2Proof.Machine.execSw rs rt imm s
  | .beq rs rt imm => Sys2Proof.Machine.execBeq rs rt imm s
  | .inert fields => Sys2Proof.Machine.execInert fields s

end Sys2Proof.Machine
end

