-- ==== Sys2Proof/Machine/Step.lean ====
section
/-! DEFINITION. One step: fetch at the PC, decode, execute (40_datapath.md R112, R113). -/

namespace Sys2Proof.Machine

/-- One cycle. It stops only where the fetch faults (60_exceptions.md R184). -/
def step (s : State) : Host.Outcome State Fault Refusal :=
  match s.fetch with
  | .ok w => exec (decode w) s
  | .error r => .fault r

/-- `s` with the `nbits` bits of `w` as the instruction word at the PC's index of the loaded program,
zero words filling a shorter program up to it (log 16, 27). -/
def State.withFetchWord (s : State) (nbits w : Nat) : State :=
  { s with imem := setPadded s.imem s.pc.toNat (BitVec.ofNat 32 (w % 2 ^ nbits)) }

end Sys2Proof.Machine
end

