-- ==== Sys2Proof/Machine/Assembler.lean ====
section
/-! DEFINITION. The spec's assembler and disassembler (30_encoding.md R69, R70; D17; log 22). They carry
no meaning: the machine runs words. There are no pseudo-instructions (R70). -/

namespace Sys2Proof.Machine

/-- One line of the syntax of R69, operands in the order it writes them. An immediate is the number
written; a label is a name whose index the assembler is given. -/
inductive AsmLine where
  | add (rd rs rt : RegIdx)
  | and (rd rs rt : RegIdx)
  | slt (rd rs rt : RegIdx)
  | addi (rt rs : RegIdx) (imm : Int)
  | lui (rt : RegIdx) (imm : Int)
  | lw (rt : RegIdx) (imm : Int) (rs : RegIdx)
  | sw (rt : RegIdx) (imm : Int) (rs : RegIdx)
  | beq (rs rt : RegIdx) (imm : Int)
  | beqLabel (rs rt : RegIdx) (label : List Char)
  | word (w : Word)
deriving DecidableEq, Repr

/-- Why a line has no word. -/
inductive AsmReject where
  /-- The immediate is outside -32768 to 65535 (R69). -/
  | immediateOutOfRange (imm : Int)
  /-- No index is given for the label. -/
  | unknownLabel (label : List Char)
  /-- `label - pc - 1` is no signed 16-bit offset, so no branch reaches the label (log 22). -/
  | labelOutOfReach (offset : Int)
deriving DecidableEq, Repr

/-! ### Words -/

/-- An immediate from -32768 to 65535, of which the low 16 bits are encoded (R69). -/
def assembleImm (imm : Int) : Except AsmReject Imm16 :=
  if -32768 ≤ imm ∧ imm ≤ 65535 then .ok (BitVec.ofInt 16 imm) else .error (.immediateOutOfRange imm)

/-- The index a label names, in a list of (label, index) pairs. -/
def labelIndex (label : List Char) : List (List Char × Nat) → Option Nat
  | [] => none
  | (l, i) :: rest => if l = label then some i else labelIndex label rest

/-- A branch to a label: `imm = label - pc - 1` (R69). -/
def assembleOffset (labels : List (List Char × Nat)) (pc : Nat) (label : List Char) :
    Except AsmReject Imm16 :=
  match labelIndex label labels with
  | none => .error (.unknownLabel label)
  | some target =>
    let offset : Int := (target : Int) - (pc : Int) - 1
    if -32768 ≤ offset ∧ offset ≤ 32767 then .ok (BitVec.ofInt 16 offset)
    else .error (.labelOutOfReach offset)

/-- The word of a line at index `pc`; the fields R69 does not name are 0. -/
def assemble (labels : List (List Char × Nat)) (pc : Nat) : AsmLine → Except AsmReject Word
  | .add rd rs rt => .ok (encode (.add rs rt rd 0))
  | .and rd rs rt => .ok (encode (.and rs rt rd 0))
  | .slt rd rs rt => .ok (encode (.slt rs rt rd 0))
  | .addi rt rs imm => (assembleImm imm).map fun v => encode (.addi rs rt v)
  | .lui rt imm => (assembleImm imm).map fun v => encode (.lui 0 rt v)
  | .lw rt imm rs => (assembleImm imm).map fun v => encode (.lw rs rt v)
  | .sw rt imm rs => (assembleImm imm).map fun v => encode (.sw rs rt v)
  | .beq rs rt imm => (assembleImm imm).map fun v => encode (.beq rs rt v)
  | .beqLabel rs rt label => (assembleOffset labels pc label).map fun v => encode (.beq rs rt v)
  | .word w => .ok w

/-- The line of a word: its row under R64, but `.word` for an inert word and where a field the syntax
fixes to 0 is not 0 (R69). Signed immediates print signed, lui's unsigned (log 22). -/
def disassemble (w : Word) : AsmLine :=
  match decode w with
  | .add rs rt rd sh => if sh = 0 then .add rd rs rt else .word w
  | .and rs rt rd sh => if sh = 0 then .and rd rs rt else .word w
  | .slt rs rt rd sh => if sh = 0 then .slt rd rs rt else .word w
  | .addi rs rt imm => .addi rt rs imm.toInt
  | .lui rs rt imm => if rs = 0 then .lui rt (imm.toNat : Int) else .word w
  | .lw rs rt imm => .lw rt imm.toInt rs
  | .sw rs rt imm => .sw rt imm.toInt rs
  | .beq rs rt imm => .beq rs rt imm.toInt
  | .inert _ => .word w

/-! ### Text -/

/-- A register, spelled `rN`. -/
def regText (r : RegIdx) : List Char := 'r' :: Nat.toDigits 10 r.toNat

/-- An immediate, in decimal. -/
def immText (imm : Int) : List Char :=
  if imm < 0 then '-' :: Nat.toDigits 10 imm.natAbs else Nat.toDigits 10 imm.natAbs

/-- `m a, b, c` -/
def lineText (m : List Char) (operands : List (List Char)) : List Char :=
  m ++ ' ' :: List.intercalate [',', ' '] operands

/-- `imm(rs)` -/
def baseText (imm : Int) (rs : RegIdx) : List Char := immText imm ++ '(' :: regText rs ++ [')']

/-- A line as R69 spells it. -/
def AsmLine.text : AsmLine → List Char
  | .add rd rs rt => lineText "add".toList [regText rd, regText rs, regText rt]
  | .and rd rs rt => lineText "and".toList [regText rd, regText rs, regText rt]
  | .slt rd rs rt => lineText "slt".toList [regText rd, regText rs, regText rt]
  | .addi rt rs imm => lineText "addi".toList [regText rt, regText rs, immText imm]
  | .lui rt imm => lineText "lui".toList [regText rt, immText imm]
  | .lw rt imm rs => lineText "lw".toList [regText rt, baseText imm rs]
  | .sw rt imm rs => lineText "sw".toList [regText rt, baseText imm rs]
  | .beq rs rt imm => lineText "beq".toList [regText rs, regText rt, immText imm]
  | .beqLabel rs rt label => lineText "beq".toList [regText rs, regText rt, label]
  | .word w => lineText ".word".toList [['0', 'x'] ++ wordText w]

/-- The value of a non-empty decimal number. -/
def decimalValue : List Char → Option Nat
  | [] => none
  | cs =>
    cs.foldl (fun acc c => acc.bind fun n =>
      if '0' ≤ c ∧ c ≤ '9' then some (10 * n + (c.toNat - '0'.toNat)) else none) (some 0)

/-- `rN` or `$N`, for N from 0 to 31 (R69). -/
def parseReg : List Char → Option RegIdx
  | c :: cs =>
    if c = 'r' ∨ c = '$' then
      (decimalValue cs).bind fun n => if n < 32 then some (BitVec.ofNat 5 n) else none
    else none
  | [] => none

/-- An immediate, decimal (negative ones with `-`) or hexadecimal with `0x` (R69). -/
def parseImm : List Char → Option Int
  | '-' :: cs => (decimalValue cs).map fun n => -(n : Int)
  | '0' :: 'x' :: cs => if cs = [] then none else (hexValue 0 cs).map fun n => (n : Int)
  | cs => (decimalValue cs).map fun n => (n : Int)

/-- The tokens of a line: the punctuation `,` `(` `)`, and what stands between it and the spaces.
`acc` is the token being read, backwards. -/
def tokens : List Char → List Char → List (List Char)
  | acc, [] => if acc = [] then [] else [acc.reverse]
  | acc, c :: cs =>
    let rest :=
      if c = ' ' then tokens [] cs
      else if c = ',' ∨ c = '(' ∨ c = ')' then [c] :: tokens [] cs
      else tokens (c :: acc) cs
    if (c = ' ' ∨ c = ',' ∨ c = '(' ∨ c = ')') ∧ acc ≠ [] then acc.reverse :: rest else rest

/-- A line's text, read back; none for any other text. -/
def parseLine (line : List Char) : Option AsmLine :=
  match tokens [] line with
  | [m, a, [','], b, [','], c] =>
    (parseReg a).bind fun x => (parseReg b).bind fun y =>
      if m = "add".toList then (parseReg c).map fun z => .add x y z
      else if m = "and".toList then (parseReg c).map fun z => .and x y z
      else if m = "slt".toList then (parseReg c).map fun z => .slt x y z
      else if m = "addi".toList then (parseImm c).map fun v => .addi x y v
      else if m = "beq".toList then
        match parseImm c with
        | some v => some (.beq x y v)
        | none => some (.beqLabel x y c)
      else none
  | [m, a, [','], b] =>
    if m = "lui".toList then (parseReg a).bind fun x => (parseImm b).map fun v => .lui x v else none
  | [m, a, [','], b, ['('], c, [')']] =>
    (parseReg a).bind fun x => (parseImm b).bind fun v => (parseReg c).bind fun y =>
      if m = "lw".toList then some (.lw x v y)
      else if m = "sw".toList then some (.sw x v y)
      else none
  | [m, '0' :: 'x' :: ds] =>
    if m = ".word".toList ∧ ds.length = 8 then (hexValue 0 ds).map fun v => .word (BitVec.ofNat 32 v)
    else none
  | _ => none

end Sys2Proof.Machine
end

