-- ==== Sys2Proof/Machine/Setup.lean ====
section
/-! DEFINITION. Setup, which takes the place of reset (70_reset_and_hazards.md R190 to R194), and its
refusals (60_exceptions.md R184). -/

namespace Sys2Proof.Machine

/-- What the host chooses before cycle 0 (R190, R204; 00_scope.md R7). Injected indices, addresses and
values are plain numbers, since the host may supply any and setup refuses those out of range (R192). -/
structure Launch where
  params : Params
  /-- The program, each word as base-16 text (R191). -/
  program : List (List Char)
  /-- Register index to initial value (R192). -/
  regInit : List (Nat × Nat)
  /-- Data-memory address to initial value (R192). -/
  dataInit : List (Nat × Nat)
deriving DecidableEq, Repr

/-- The words of a program text, from index `k` on; the first that does not parse is refused (R191). -/
def parseProgram : Nat → List (List Char) → Except Refusal (List Word)
  | _, [] => .ok []
  | k, t :: ts =>
    match parseWordText t with
    | .error why => .error (.unparsableWord k why)
    | .ok w =>
      match parseProgram (k + 1) ts with
      | .error r => .error r
      | .ok ws => .ok (w :: ws)

/-- Program load: at least one word, the k-th to index k (R191, R193; D20). -/
def loadProgram (program : List (List Char)) : Except Refusal (List Word) :=
  if program = [] then .error .noInstructions else parseProgram 0 program

/-- The state before any injection: pc 0 and every location at its fill (10_state.md R32). -/
def initialState (p : Params) (imem : List Word) : State :=
  { params := p
    pc := 0
    regs := Vector.ofFn (fun i : Fin 32 => fillReg p i.val)
    dmem := []
    imem := imem
    wr := Vector.replicate 32 false
    wd := [] }

/-- One injected register: its stored value and its place in WR (R192; D21, D22). Register 0 is
injected like any other. -/
def injectReg (s : State) (i v : Nat) : Except Refusal State :=
  if h : i < 32 then
    if v < 2 ^ 32 then
      .ok { s with regs := s.regs.set i (BitVec.ofNat 32 v) h, wr := s.wr.set i true h }
    else .error (.valueOutOfRange v)
  else .error (.registerIndexOutOfRange i)

/-- One injected word of data memory, and its place in WD (R192; D21, D22). -/
def injectData (s : State) (a v : Nat) : Except Refusal State :=
  if a < 2 ^ s.params.dmemAddrWidth.val then
    if v < 2 ^ 32 then .ok (s.writeData a (BitVec.ofNat 32 v)) else .error (.valueOutOfRange v)
  else .error (.dataAddressOutOfRange a)

/-- Injections in the order listed, stopping at the first that is refused; of two for one location
the later stays (log 18). -/
def injectAll (inject : State → Nat → Nat → Except Refusal State) :
    State → List (Nat × Nat) → Except Refusal State
  | s, [] => .ok s
  | s, (k, v) :: l =>
    match inject s k v with
    | .error r => .error r
    | .ok s' => injectAll inject s' l

/-- Setup: load, then inject registers, then data memory (R190). A refusal means that no cycle runs
(R184). -/
def setup (l : Launch) : Host.Outcome State Fault Refusal :=
  match loadProgram l.program with
  | .error r => .refused r
  | .ok imem =>
    match injectAll injectReg (initialState l.params imem) l.regInit with
    | .error r => .refused r
    | .ok s =>
      match injectAll injectData s l.dataInit with
      | .error r => .refused r
      | .ok s' => .next s'

end Sys2Proof.Machine
end

