-- ==== Sys2Proof/Machine/HostInterface.lean ====
section
/-! DEFINITION. The host's run and inspection (70_reset_and_hazards.md R196 to R199). -/

namespace Sys2Proof.Machine

/-- The sparse maps of R198, in rising order of index and address. Whether the PC is inspectable is left
to the model (R198; 91_not_in_source.md, 70_reset_and_hazards): DESIGN CHOICE, the snapshot holds no PC
(log 30). -/
structure Snapshot where
  regs : List (Nat × Word)
  data : List (Nat × Word)
deriving DecidableEq, Repr

/-- The inspection: the locations of WR and WD with the values a read of them gives (R198; D22).
It reads register 0 like an instruction does, so R0_HARDWIRED shows 0 there (R110; log 3). -/
def inspect (s : State) : Snapshot :=
  { regs := ((List.range 32).filter (fun i => s.regWritten (BitVec.ofNat 5 i))).map
      (fun i => (i, s.readReg (BitVec.ofNat 5 i)))
    data := s.wd.map (fun a => (a, s.readData a)) }

/-- `nCycles` calls of `step()` (R197, R199; D23; log 20). -/
def runCycles (nCycles : Nat) (s : State) : Host.Outcome State Fault Refusal :=
  Host.Core.run core nCycles s

/-- The result of a launch: setup, N_CYCLES cycles, inspection (R199). -/
def launchResult (l : Launch) (nCycles : Nat) : Host.Outcome Snapshot Fault Refusal :=
  match setup l with
  | .refused r => .refused r
  | .fault r => .fault r
  | .next s =>
    match runCycles nCycles s with
    | .refused r => .refused r
    | .fault r => .fault r
    | .next t => .next (inspect t)

end Sys2Proof.Machine
end

