-- ==== Sys2Proof/Safety.lean ====
section
/-! DEFINITION. What every reachable state satisfies, and what a safe run is. -/

namespace Sys2Proof.Machine

/-- The invariant of a launch's states:
- data memory is in its canonical form and lists only addresses that exist (10_state.md R29);
- WD is in rising order and names only addresses that exist (R31);
- a location that was neither injected nor written holds its fill (R31, R32). -/
structure State.Inv (s : State) : Prop where
  memory_wf : Memory.wf (fillData s.params) s.dmem = true
  data_in_range : ∀ a, (Memory.lookup a s.dmem).isSome → a < 2 ^ s.params.dmemAddrWidth.val
  wd_rising : risingFrom 0 s.wd = true
  wd_in_range : ∀ a ∈ s.wd, a < 2 ^ s.params.dmemAddrWidth.val
  unwritten_reg : ∀ r : RegIdx, s.regWritten r = false →
    s.regs[r.toNat]'(r.isLt) = fillReg s.params r.toNat
  unwritten_data : ∀ a, a ∉ s.wd → s.readData a = fillData s.params a

/-- A safe run: the machine never stops, for any number of cycles (40_datapath.md R106, R113). -/
def RunsForever (s : State) : Prop := ∀ n, ∃ t, runCycles n s = .next t

/-- `t` is reached from `s` by some number of cycles. -/
def Reaches (s t : State) : Prop := ∃ n, runCycles n s = .next t

end Sys2Proof.Machine
end

