-- ==== Sys2Proof/Certificates/Slice0/Obligations.lean ====
section
/-! DEFINITION. The statements for the provers. Each names the rules of spec/ it formalises; the words
"the model's choice" mark a clause that rests on an assumption of notes/assumptions. -/

namespace Sys2Proof.Spec

open Sys2Proof.Machine

/-! ### What an instruction changes, and its frame -/

/-- From `s` to `t` the register `dst` is written with `v` and enters WR, the PC advances by one, and
nothing else changes: every other register, every word of data memory, WD, the program and the
parameters (40_datapath.md R108, R112; arithmetic modulo 2^32, 00_scope.md R9). Where register 0 is
hardwired its write changes no value (R110) and still enters WR (R112; log 3). -/
structure WritesRegister (s t : State) (dst : RegIdx) (v : Word) : Prop where
  pc : t.pc = s.pc + 1
  reg : ∀ r, t.readReg r = if r = dst ∧ ¬(s.params.r0Hardwired = true ∧ dst = 0) then v else s.readReg r
  wr : ∀ r, t.regWritten r = true ↔ r = dst ∨ s.regWritten r = true
  data : ∀ a, t.readData a = s.readData a
  wd : ∀ a, a ∈ t.wd ↔ a ∈ s.wd
  imem : t.imem = s.imem
  params : t.params = s.params

/-- From `s` to `t` the data-memory word at `a` is written with `v` and enters WD, the PC advances by
one, and nothing else changes: every register, every other word, WR, the program, the parameters. -/
structure WritesData (s t : State) (a : Nat) (v : Word) : Prop where
  pc : t.pc = s.pc + 1
  data : ∀ b, t.readData b = if b = a then v else s.readData b
  wd : ∀ b, b ∈ t.wd ↔ b = a ∨ b ∈ s.wd
  reg : ∀ r, t.readReg r = s.readReg r
  wr : ∀ r, t.regWritten r = s.regWritten r
  imem : t.imem = s.imem
  params : t.params = s.params

/-- From `s` to `t` only the PC changes, to `pc'`. -/
structure WritesOnlyPc (s t : State) (pc' : Word) : Prop where
  pc : t.pc = pc'
  reg : ∀ r, t.readReg r = s.readReg r
  wr : ∀ r, t.regWritten r = s.regWritten r
  data : ∀ a, t.readData a = s.readData a
  wd : ∀ a, a ∈ t.wd ↔ a ∈ s.wd
  imem : t.imem = s.imem
  params : t.params = s.params

/-- Bits `lo + n - 1` to `lo` of a word, as a number. -/
def field (w : Word) (lo n : Nat) : Nat := w.toNat / 2 ^ lo % 2 ^ n

/-- `sext_32` by its numerical meaning (00_scope.md R10). -/
def signExtended (imm : Imm16) : Word := BitVec.ofInt 32 imm.toInt

/-- `zext_32` by its numerical meaning (R10). -/
def zeroExtended (imm : Imm16) : Word := BitVec.ofNat 32 imm.toNat

/-- The register an instruction writes, if it writes one (10_state.md R24). -/
def regDestination : Instr → Option RegIdx
  | .add _ _ rd _ => some rd
  | .and _ _ rd _ => some rd
  | .slt _ _ rd _ => some rd
  | .addi _ rt _ => some rt
  | .lui _ rt _ => some rt
  | .lw _ rt _ => some rt
  | .sw _ _ _ => none
  | .beq _ _ _ => none
  | .inert _ => none

/-- The data-memory address an instruction writes, if it writes one (20_memory.md R45). -/
def dataDestination : Instr → Option Nat
  | .sw _ rt _ => some rt.toNat
  | .add _ _ _ _ => none
  | .and _ _ _ _ => none
  | .slt _ _ _ _ => none
  | .addi _ _ _ => none
  | .lui _ _ _ => none
  | .lw _ _ _ => none
  | .beq _ _ _ => none
  | .inert _ => none

/-- The control row an instruction runs under (30_encoding.md R64; 40_datapath.md R85). -/
def rowOf (p : Params) : Instr → ControlSignals
  | .add _ _ _ _ => rowAdd
  | .and _ _ _ _ => rowAnd
  | .slt _ _ _ _ => rowSlt
  | .addi _ _ _ => rowAddi p
  | .lui _ _ _ => rowLui
  | .lw _ _ _ => rowLw
  | .sw _ _ _ => rowSw
  | .beq _ _ _ => rowBeq
  | .inert _ => rowInert

/-! ### R112 over the record of R33, written apart from the model -/

/-- The record of 10_state.md R33, `w` being DMEM_ADDR_WIDTH. -/
structure SpecState (w : Nat) where
  pc : Word
  R : Fin 32 → Word
  D : BitVec w → Word
  WR : Set (Fin 32)
  WD : Set (BitVec w)

/-- The model's state as that record. -/
def view (w : Nat) (s : State) : SpecState w :=
  { pc := s.pc
    R := fun i => s.regs[i]
    D := fun a => s.readData a.toNat
    WR := fun i => s.wr[i] = true
    WD := fun a => a.toNat ∈ s.wd }

/-- A row of the control table, in the order of 40_datapath.md R85's columns. -/
structure Row where
  aluOp : Nat
  memToReg : Nat
  memWrite : Nat
  aluSrc : Nat
  regWrite : Nat
  branchEnable : Nat
  regDstSelectsRd : Nat

/-- The control table of R85 and R86, with ADDI_ALU_SRC as its parameter. -/
def controlTable (addiAluSrc opcode funct : Nat) : Row :=
  match opcode, funct with
  | 0x00, 0x20 => ⟨0, 0, 0, 0, 1, 0, 1⟩
  | 0x00, 0x24 => ⟨1, 0, 0, 0, 1, 0, 1⟩
  | 0x00, 0x2A => ⟨4, 0, 0, 0, 1, 0, 1⟩
  | 0x08, _ => ⟨0, 0, 0, addiAluSrc, 1, 0, 0⟩
  | 0x0F, _ => ⟨5, 0, 0, 2, 1, 0, 0⟩
  | 0x23, _ => ⟨0, 1, 0, 1, 1, 0, 0⟩
  | 0x2B, _ => ⟨0, 0, 1, 1, 0, 0, 0⟩
  | 0x04, _ => ⟨3, 0, 0, 1, 0, 1, 0⟩
  | _, _ => ⟨0, 0, 0, 0, 0, 0, 0⟩

/-- The number of ADDI_ALU_SRC. -/
def addiAluSrcNumber : AddiAluSrc → Nat
  | .src0 => 0
  | .src1 => 1
  | .src2 => 2

/-- The ALU of R95 to R102 on numbers below 2^32: the result and the zero flag. -/
def aluNumber (aluOp a b shamt : Nat) : Nat × Bool :=
  match aluOp with
  | 0 => ((a + b) % 2 ^ 32, false)
  | 1 => (a &&& b, false)
  | 2 => (a ||| b, false)
  | 3 => ((a + (2 ^ 32 - b)) % 2 ^ 32, decide (a = b))
  | 4 => (if b < a then 1 else 0, false)
  | 5 => (b * 2 ^ shamt % 2 ^ 32, false)
  | _ => (0, false)

/-- `IMemRead` (10_state.md R28): none is the fetch fault. -/
def specFetch (p : Params) (I : Word → Option Word) (pc : Word) : Option Word :=
  match I pc with
  | some w => some w
  | none => if p.unloadedFetch = .zero then some 0 else none

/-- The body of R112's `step` after the fetch of `instr`, line by line; `x` is the register read of
R23 and R110. -/
def specCycle {w : Nat} (p : Params) (instr : Word) (s : SpecState w) : SpecState w :=
  let n := instr.toNat
  let rs : Fin 32 := Fin.ofNat 32 (n / 2 ^ 21)
  let rt : Fin 32 := Fin.ofNat 32 (n / 2 ^ 16)
  let rd : Fin 32 := Fin.ofNat 32 (n / 2 ^ 11)
  let imm : Imm16 := BitVec.ofNat 16 n
  let c := controlTable (addiAluSrcNumber p.addiAluSrc) (n / 2 ^ 26) (n % 2 ^ 6)
  let x : Fin 32 → Word := fun i => if p.r0Hardwired = true ∧ i = 0 then 0 else s.R i
  let dst := if c.regDstSelectsRd = 1 then rd else rt
  let A := x rs
  let Bbase := x dst
  let B := match c.aluSrc with
    | 1 => if c.branchEnable = 0 then signExtended imm else Bbase
    | 2 => zeroExtended imm
    | _ => Bbase
  let off := signExtended imm
  let (res, z) := aluNumber c.aluOp A.toNat B.toNat (n / 2 ^ 6 % 2 ^ 5)
  { pc := if c.branchEnable = 1 ∧ z = true then s.pc + off + 1 else s.pc + 1
    R := fun i =>
      if c.regWrite = 1 ∧ i = dst ∧ ¬(p.r0Hardwired = true ∧ dst = 0) then BitVec.ofNat 32 res
      else s.R i
    WR := fun i => (c.regWrite = 1 ∧ i = dst) ∨ i ∈ s.WR
    D := fun a => if c.memWrite = 1 ∧ a.toNat = dst.val then BitVec.ofNat 32 res else s.D a
    WD := fun a => (c.memWrite = 1 ∧ a.toNat = dst.val) ∨ a ∈ s.WD }

end Sys2Proof.Spec

open Sys2Proof Sys2Proof.Machine Sys2Proof.Spec

/-! ## Encoding -/

/-- Words written out from the bit pictures of 30_encoding.md R69 (and the words of 95_test_vectors.md)
decode to the instructions they spell. -/
def Obligations.SpecWordsDecode : Prop :=
  decode 0b000000_01000_01001_01010_00000_100000 = .add 8 9 10 0 ∧
  decode 0b000000_00001_01001_00010_00000_100100 = .and 1 9 2 0 ∧
  decode 0b000000_00001_00000_00011_00000_101010 = .slt 1 0 3 0 ∧
  decode 0b001000_00001_00010_1000000000000001 = .addi 1 2 0x8001 ∧
  decode 0b001111_00000_00110_0001001000110100 = .lui 0 6 0x1234 ∧
  decode 0b100011_00101_00110_0000000000000100 = .lw 5 6 4 ∧
  decode 0b101011_00101_00111_0000000000001000 = .sw 5 7 8 ∧
  decode 0b000100_00001_00010_1111111111111011 = .beq 1 2 0xFFFB ∧
  decode 0xFFFFFFFF = .inert ⟨63, 31, 31, 31, 31, 63⟩ ∧
  decode 0x00000000 = .inert ⟨0, 0, 0, 0, 0, 0⟩

/-- Decoding the word of a well-formed instruction gives it back, every operand at every value
(R61, R64). -/
def Obligations.DecodeOfEncode : Prop := ∀ i : Instr, i.WellFormed → decode (encode i) = i

/-- Every 32-bit word decodes to a well-formed instruction whose word it is: no word is refused and no
bit is dropped (R60, R66). -/
def Obligations.EncodeOfDecode : Prop :=
  ∀ w : Word, (decode w).WellFormed ∧ encode (decode w) = w

/-- Every field of the decoder is the number its bits spell (R61, R82), and immediate16 overlaps the
last three. -/
def Obligations.DecodedFieldsAreTheirBits : Prop :=
  ∀ w : Word,
    (decodeFields w).opcode.toNat = field w 26 6 ∧
    (decodeFields w).rs.toNat = field w 21 5 ∧
    (decodeFields w).rt.toNat = field w 16 5 ∧
    (decodeFields w).rd.toNat = field w 11 5 ∧
    (decodeFields w).shiftAmount.toNat = field w 6 5 ∧
    (decodeFields w).functionCode.toNat = field w 0 6 ∧
    (decodeFields w).immediate16.toNat = field w 0 16 ∧
    (decodeFields w).immediate16 =
      (decodeFields w).rd ++ (decodeFields w).shiftAmount ++ (decodeFields w).functionCode

/-- The opcode map of R64, from the numbers of `opcode` and `functionCode`: nine cases, one for each
row, operands at their bit positions (R61); and the ControlUnit selects the row of that instruction. -/
def Obligations.OpcodeMapSelectsInstr : Prop :=
  ∀ w : Word,
    let op := field w 26 6
    let fn := field w 0 6
    let rs : RegIdx := BitVec.ofNat 5 (field w 21 5)
    let rt : RegIdx := BitVec.ofNat 5 (field w 16 5)
    let rd : RegIdx := BitVec.ofNat 5 (field w 11 5)
    let sh : Shamt := BitVec.ofNat 5 (field w 6 5)
    let imm : Imm16 := BitVec.ofNat 16 (field w 0 16)
    (op = 0x00 ∧ fn = 0x20 → decode w = .add rs rt rd sh) ∧
    (op = 0x00 ∧ fn = 0x24 → decode w = .and rs rt rd sh) ∧
    (op = 0x00 ∧ fn = 0x2A → decode w = .slt rs rt rd sh) ∧
    (op = 0x08 → decode w = .addi rs rt imm) ∧
    (op = 0x0F → decode w = .lui rs rt imm) ∧
    (op = 0x23 → decode w = .lw rs rt imm) ∧
    (op = 0x2B → decode w = .sw rs rt imm) ∧
    (op = 0x04 → decode w = .beq rs rt imm) ∧
    (op = 0x00 ∧ fn ∉ [0x20, 0x24, 0x2A] ∨ op ∉ [0x00, 0x04, 0x08, 0x0F, 0x23, 0x2B] →
      decode w = .inert ⟨BitVec.ofNat 6 op, rs, rt, rd, sh, BitVec.ofNat 6 fn⟩) ∧
    ∀ p, controlUnit p (decodeFields w).opcode (decodeFields w).functionCode = rowOf p (decode w)

/-- The number of inert words (R66). -/
def Obligations.InertWordCount : Prop :=
  Set.ncard {w : Word | ∃ f, decode w = .inert f} = 2 ^ 32 - 5 * 2 ^ 26 - 3 * 2 ^ 20

/-! ## The control table and the ALU -/

/-- The ControlUnit is the table of 40_datapath.md R85, with the inert row for every other pair (R86),
at every value of ADDI_ALU_SRC. sw's memToReg is the spec's decision D10 (log 12). -/
def Obligations.ControlUnitIsTheTable : Prop :=
  ∀ (p : Params) (opcode funct : Code6),
    let c := controlUnit p opcode funct
    let r := controlTable (addiAluSrcNumber p.addiAluSrc) opcode.toNat funct.toNat
    c.aluOp.toNat = r.aluOp ∧ c.memToReg.toNat = r.memToReg ∧ c.memWrite.toNat = r.memWrite ∧
    c.aluSrc.toNat = r.aluSrc ∧ c.regWrite.toNat = r.regWrite ∧
    c.branchEnable.toNat = r.branchEnable ∧ c.regDstSelectsRd.toNat = r.regDstSelectsRd

/-- No row selects an operation or an operand the source leaves undefined (aluOp 6 and 7, aluSrc 3),
nor the unused OR (R92, R97, R101); the two write enables are never both 1 (R111); the zero flag is
read only where it is computed (R102). -/
def Obligations.TableStaysInDefinedValues : Prop :=
  ∀ (p : Params) (opcode funct : Code6),
    let c := controlUnit p opcode funct
    c.aluOp ∈ [0, 1, 3, 4, 5] ∧ c.aluSrc ≠ 3 ∧ (c.regWrite && c.memWrite) = false ∧
    (c.branchEnable = true → c.aluOp = 3 ∧ c.aluSrc = 1)

/-- The ALU's operations by their numerical meaning (R95 to R100), and the zero flag of the
subtraction (R98). -/
def Obligations.AluComputesItsOperations : Prop :=
  ∀ (a b : Word) (sh : Shamt),
    (aluResult 0 a b sh).toNat = (a.toNat + b.toNat) % 2 ^ 32 ∧
    (∀ i, (aluResult 1 a b sh).getLsbD i = (a.getLsbD i && b.getLsbD i)) ∧
    (∀ i, (aluResult 2 a b sh).getLsbD i = (a.getLsbD i || b.getLsbD i)) ∧
    ((aluResult 3 a b sh).toNat : Int) = ((a.toNat : Int) - b.toNat) % 2 ^ 32 ∧
    (aluZeroFlag 3 a b = true ↔ a = b) ∧
    aluResult 4 a b sh = (if BitVec.ult b a then 0x00000001 else 0x00000000) ∧
    (aluResult 5 a b sh).toNat = b.toNat * 2 ^ sh.toNat % 2 ^ 32

/-! ## The instructions: encoding, control row, effect and frame -/

/-- add (41_rtype.md R120): its words, its control row, and its effect from every state: rd is written
with x[rs] + x[rd], both read before the write; rt and shiftAmount have no effect; nothing else
changes. The model's choice: rd's place in WR (D22, log 19), and that a hardwired register 0 keeps its
value and still enters WR (R108, R110, R112; log 3). -/
def Obligations.AddWritesRsPlusRd : Prop :=
  (∀ w : Word, w &&& 0xFC00003F = 0x00000020 ↔ ∃ rs rt rd sh, decode w = .add rs rt rd sh) ∧
  (∀ p, controlUnit p 0x00 0x20 = ⟨0, false, false, 0, true, false, true⟩) ∧
  ∀ rs rt rd sh s, ∃ t, exec (.add rs rt rd sh) s = .next t ∧
    WritesRegister s t rd (s.readReg rs + s.readReg rd)

/-- and (R121): rd is written with x[rs] & x[rd]. The model's choice: rd's place in WR (D22, log 19),
and that a hardwired register 0 keeps its value and still enters WR (R108, R110, R112; log 3). -/
def Obligations.AndWritesRsAndRd : Prop :=
  (∀ w : Word, w &&& 0xFC00003F = 0x00000024 ↔ ∃ rs rt rd sh, decode w = .and rs rt rd sh) ∧
  (∀ p, controlUnit p 0x00 0x24 = ⟨1, false, false, 0, true, false, true⟩) ∧
  ∀ rs rt rd sh s, ∃ t, exec (.and rs rt rd sh) s = .next t ∧
    WritesRegister s t rd (s.readReg rs &&& s.readReg rd)

/-- slt (R122): rd is written with 1 if x[rd] is below x[rs] as unsigned words, else with 0. The model's
choice: rd's place in WR (D22, log 19), and that a hardwired register 0 keeps its value and still enters
WR (R108, R110, R112; log 3). -/
def Obligations.SltWritesRdBelowRs : Prop :=
  (∀ w : Word, w &&& 0xFC00003F = 0x0000002A ↔ ∃ rs rt rd sh, decode w = .slt rs rt rd sh) ∧
  (∀ p, controlUnit p 0x00 0x2A = ⟨4, false, false, 0, true, false, true⟩) ∧
  ∀ rs rt rd sh s, ∃ t, exec (.slt rs rt rd sh) s = .next t ∧
    WritesRegister s t rd
      (if BitVec.ult (s.readReg rd) (s.readReg rs) then 0x00000001 else 0x00000000)

/-- addi (42_imm_alu.md R130) in each of its variants (R132): rt is written with x[rs] plus x[rt], the
sign-extended or the zero-extended immediate (the spec's decision D1, log 2). The model's choice: rt's
place in WR (D22, log 19), and that a hardwired register 0 keeps its value and still enters WR (R108,
R110, R112; log 3). -/
def Obligations.AddiWritesSumInEveryVariant : Prop :=
  (∀ w : Word, w &&& 0xFC000000 = 0x20000000 ↔ ∃ rs rt imm, decode w = .addi rs rt imm) ∧
  (∀ (p : Params) (fn : Code6), controlUnit p 0x08 fn =
    ⟨0, false, false, BitVec.ofNat 2 (addiAluSrcNumber p.addiAluSrc), true, false, false⟩) ∧
  ∀ rs rt imm s, ∃ t, exec (.addi rs rt imm) s = .next t ∧
    WritesRegister s t rt (s.readReg rs +
      (match s.params.addiAluSrc with
        | .src0 => s.readReg rt
        | .src1 => signExtended imm
        | .src2 => zeroExtended imm))

/-- lui (R131): rt is written with the zero-extended immediate shifted left, modulo 2^32, by the
immediate's own bits 10 to 6; rs has no effect. The model's choice: rt's place in WR (D22, log 19), and
that a hardwired register 0 keeps its value and still enters WR (R108, R110, R112; log 3). -/
def Obligations.LuiShiftsByItsOwnBits : Prop :=
  (∀ w : Word, w &&& 0xFC000000 = 0x3C000000 ↔ ∃ rs rt imm, decode w = .lui rs rt imm) ∧
  (∀ (p : Params) (fn : Code6), controlUnit p 0x0F fn = ⟨5, false, false, 2, true, false, false⟩) ∧
  ∀ rs rt imm s, ∃ t, exec (.lui rs rt imm) s = .next t ∧
    WritesRegister s t rt (BitVec.ofNat 32 (imm.toNat * 2 ^ (imm.toNat / 2 ^ 6 % 2 ^ 5)))

/-- lw (43_memory_ops.md R140): rt is written with the sum x[rs] + sext(imm) itself; data memory is
neither read nor changed. The model's choice: rt's place in WR (D22, log 19), and that a hardwired
register 0 keeps its value and still enters WR (R108, R110, R112; log 3). -/
def Obligations.LwWritesTheAddressSum : Prop :=
  (∀ w : Word, w &&& 0xFC000000 = 0x8C000000 ↔ ∃ rs rt imm, decode w = .lw rs rt imm) ∧
  (∀ (p : Params) (fn : Code6), controlUnit p 0x23 fn = ⟨0, true, false, 1, true, false, false⟩) ∧
  ∀ rs rt imm s, ∃ t, exec (.lw rs rt imm) s = .next t ∧
    WritesRegister s t rt (s.readReg rs + signExtended imm)

/-- sw (R141): the data-memory word at the rt field itself is written with x[rs] + sext(imm); no
register and no other word changes. The model's choice: the control row's memToReg 0, where the source
prints a dash (R85, D10; log 12), and the address's place in WD (R109, D22; log 19). -/
def Obligations.SwStoresTheSumAtItsRtField : Prop :=
  (∀ w : Word, w &&& 0xFC000000 = 0xAC000000 ↔ ∃ rs rt imm, decode w = .sw rs rt imm) ∧
  (∀ (p : Params) (fn : Code6), controlUnit p 0x2B fn = ⟨0, false, true, 1, false, false, false⟩) ∧
  ∀ rs rt imm s, ∃ t, exec (.sw rs rt imm) s = .next t ∧
    WritesData s t rt.toNat (s.readReg rs + signExtended imm)

/-- beq (44_branch.md R150): the PC goes to pc + sext(imm) + 1 if x[rs] and x[rt] are equal, else to
pc + 1; nothing else changes (the wrap is the spec's decision D6, log 7). -/
def Obligations.BeqBranchesOnEqualRegisters : Prop :=
  (∀ w : Word, w &&& 0xFC000000 = 0x10000000 ↔ ∃ rs rt imm, decode w = .beq rs rt imm) ∧
  (∀ (p : Params) (fn : Code6), controlUnit p 0x04 fn = ⟨3, false, false, 1, false, true, false⟩) ∧
  ∀ rs rt imm s, ∃ t, exec (.beq rs rt imm) s = .next t ∧
    WritesOnlyPc s t
      (if s.readReg rs = s.readReg rt then s.pc + signExtended imm + 1 else s.pc + 1)

/-- INERT (45_inert.md R160): every word whose codes select no row decodes to it, its control row is
all zero, and it only advances the PC by one. -/
def Obligations.InertOnlyAdvancesPc : Prop :=
  (∀ w : Word,
    (field w 26 6 ∉ [0x00, 0x04, 0x08, 0x0F, 0x23, 0x2B] ∨
      field w 26 6 = 0x00 ∧ field w 0 6 ∉ [0x20, 0x24, 0x2A]) ↔ ∃ f, decode w = .inert f) ∧
  (∀ (p : Params) (w : Word), (∃ f, decode w = .inert f) →
    controlUnit p (decodeFields w).opcode (decodeFields w).functionCode =
      ⟨0, false, false, 0, false, false, false⟩) ∧
  ∀ f s, ∃ t, exec (.inert f) s = .next t ∧ WritesOnlyPc s t (s.pc + 1)

/-- The words of R161, which spell other instructions in MIPS, are all inert here: from any state they
only advance the PC. -/
def Obligations.MipsWordsAreInert : Prop :=
  ∀ (w : Word) (s : State),
    (field w 26 6 = 0x00 ∧
        field w 0 6 ∈ [0x00, 0x02, 0x08, 0x0C, 0x0D, 0x21, 0x22, 0x25, 0x2B] ∨
      field w 26 6 ∈ [0x02, 0x03, 0x05, 0x09, 0x0C, 0x0D, 0x0A, 0x10, 0x20, 0x28]) →
    ∃ t, exec (decode w) s = .next t ∧ WritesOnlyPc s t (s.pc + 1)

/-- The fields an instruction ignores have no effect on it (30_encoding.md R68): rt and shiftAmount of
the register-register instructions, rs of lui, the immediate of addi where ADDI_ALU_SRC is 0, every
field of an inert word. -/
def Obligations.IgnoredFieldsHaveNoEffect : Prop :=
  ∀ (rs rs' rt rt' rd : RegIdx) (sh sh' : Shamt) (imm imm' : Imm16) (f f' : Fields) (s : State),
    exec (.add rs rt rd sh) s = exec (.add rs rt' rd sh') s ∧
    exec (.and rs rt rd sh) s = exec (.and rs rt' rd sh') s ∧
    exec (.slt rs rt rd sh) s = exec (.slt rs rt' rd sh') s ∧
    exec (.lui rs rt imm) s = exec (.lui rs' rt imm) s ∧
    (s.params.addiAluSrc = .src0 → exec (.addi rs rt imm) s = exec (.addi rs rt imm') s) ∧
    exec (.inert f) s = exec (.inert f') s

/-! ## One step -/

/-- A step at a loaded index runs the instruction its word decodes to, and nothing is added around it
(10_state.md R28; 40_datapath.md R112). The second clause is the model's choice: `withFetchWord` is the
model's own, it stands for the loader and places the word that the next step runs (log 16, 27). -/
def Obligations.StepRunsTheDecodedInstr : Prop :=
  (∀ (s : State) (w : Word), s.imem[s.pc.toNat]? = some w → step s = exec (decode w) s) ∧
  ∀ (s : State) (w : Word),
    step (s.withFetchWord 32 w.toNat) = exec (decode w) (s.withFetchWord 32 w.toNat)

/-- A step past the loaded program (10_state.md R28; 45_inert.md R162; 60_exceptions.md R184; the spec's
decision D4, log 5): an inert cycle where UNLOADED_FETCH is Zero, and where it is Fault the fault that
records the pc. -/
def Obligations.StepPastTheProgram : Prop :=
  ∀ s : State, s.imemSize ≤ s.pc.toNat →
    (s.params.unloadedFetch = .zero → ∃ t, step s = .next t ∧ WritesOnlyPc s t (s.pc + 1)) ∧
    (s.params.unloadedFetch = .fault → step s = .fault (.unloadedFetch s.pc))

/-- A step is total for every state and word; the one exception is the fetch fault under
UNLOADED_FETCH = Fault (40_datapath.md R113). -/
def Obligations.StepIsTotalButForTheFetchFault : Prop :=
  (∀ (i : Instr) (s : State), ∃ t, exec i s = .next t) ∧
  ∀ s : State,
    (∃ t, step s = .next t) ∨
    (s.params.unloadedFetch = .fault ∧ s.imemSize ≤ s.pc.toNat ∧
      step s = .fault (.unloadedFetch s.pc))

/-- Under UNLOADED_FETCH = Zero no run stops, however long (R106; 60_exceptions.md R183; the spec's
decision D4, log 5). -/
def Obligations.RunNeverStopsUnderZeroFetch : Prop :=
  ∀ s : State, s.params.unloadedFetch = .zero → RunsForever s

/-- A step moves the PC by one, or, only where the word is a beq of equal registers, by its offset and
one (40_datapath.md R105; 44_branch.md R151; the wrap is the spec's decision D6, log 7). -/
def Obligations.PcMovesByOneOrByBranch : Prop :=
  ∀ (s t : State) (w : Word), s.fetch = .ok w → step s = .next t →
    t.pc = s.pc + 1 ∨
    ∃ rs rt imm, decode w = .beq rs rt imm ∧ s.readReg rs = s.readReg rt ∧
      t.pc = s.pc + signExtended imm + 1

/-- A step changes no register but the destination of an instruction that writes one, and adds to WR
that destination only (10_state.md R24, R31; the spec's decision D22, log 19). -/
def Obligations.OnlyTheDestinationRegisterChanges : Prop :=
  ∀ (s t : State) (w : Word), s.fetch = .ok w → step s = .next t → ∀ r : RegIdx,
    (regDestination (decode w) ≠ some r → t.readReg r = s.readReg r) ∧
    (t.regWritten r = true ↔ s.regWritten r = true ∨ regDestination (decode w) = some r)

/-- A step changes no word of data memory but the one a sw names by its rt field, and adds to WD that
address only (20_memory.md R44, R45; 10_state.md R31; the spec's decision D22, log 19). -/
def Obligations.OnlyTheSwAddressChanges : Prop :=
  ∀ (s t : State) (w : Word), s.fetch = .ok w → step s = .next t → ∀ a : Nat,
    (dataDestination (decode w) ≠ some a → t.readData a = s.readData a) ∧
    (a ∈ t.wd ↔ a ∈ s.wd ∨ dataDestination (decode w) = some a)

/-- A step makes at most one write besides the PC: the register that the word's instruction names and no
word of data memory, or the word of data memory that it names, below address 32, and no register, or
neither (40_datapath.md R111; 60_exceptions.md R175; 20_memory.md R45). No instruction names both. What
enters WR and WD is the spec's decision D22 (log 19). -/
def Obligations.StepMakesAtMostOneWrite : Prop :=
  ∀ (s t : State) (w : Word), s.fetch = .ok w → step s = .next t →
    match regDestination (decode w), dataDestination (decode w) with
    | some q, none =>
      (∀ r, r ≠ q → t.readReg r = s.readReg r ∧ t.regWritten r = s.regWritten r) ∧
      t.regWritten q = true ∧ (∀ a, t.readData a = s.readData a) ∧ t.wd = s.wd
    | none, some b =>
      b < 32 ∧ (∀ a, a ≠ b → t.readData a = s.readData a ∧ (a ∈ t.wd ↔ a ∈ s.wd)) ∧ b ∈ t.wd ∧
      ∀ r, t.readReg r = s.readReg r ∧ t.regWritten r = s.regWritten r
    | none, none =>
      (∀ r, t.readReg r = s.readReg r ∧ t.regWritten r = s.regWritten r) ∧
      (∀ a, t.readData a = s.readData a) ∧ t.wd = s.wd
    | some _, some _ => False

/-- No instruction writes instruction memory (70_reset_and_hazards.md R202). -/
def Obligations.NoInstrWritesTheProgram : Prop :=
  ∀ (i : Instr) (s t : State), exec i s = .next t → t.imem = s.imem

/-- One cycle is R112, for every state, word and parameter: the model's step, seen as the record of
10_state.md R33, is the rule's `step(s)` written apart from the model on numbers; it stops only where
`IMemRead` faults, and the program and the parameters stay (R28). It holds the spec's decisions D1, D2,
D4, D6, D10 to D14 and D22 (log 2, 3, 5, 7, 12 to 15, 19). -/
def Obligations.StepRefinesTheCycleRule : Prop :=
  ∀ s : State,
    match specFetch s.params (fun a => s.imem[a.toNat]?) s.pc with
    | some instr => ∃ t, step s = .next t ∧ t.imem = s.imem ∧ t.params = s.params ∧
        view s.params.dmemAddrWidth.val t =
          specCycle s.params instr (view s.params.dmemAddrWidth.val s)
    | none => step s = .fault (.unloadedFetch s.pc)

/-! ## Runs -/

/-- Over any run the program and the parameters stay, and no word of data memory at address 32 or above
changes or enters WD: the engine can write addresses 0 to 31 only (20_memory.md R45, R51). -/
def Obligations.RunKeepsProgramAndHighData : Prop :=
  ∀ (n : Nat) (s t : State), runCycles n s = .next t →
    t.imem = s.imem ∧ t.params = s.params ∧
    ∀ a, 32 ≤ a → t.readData a = s.readData a ∧ (a ∈ t.wd ↔ a ∈ s.wd)

/-- Nothing a run does to the PC or the registers depends on data memory (20_memory.md R46): two states
that differ in data memory and WD only end, after any number of cycles, in states that differ there
only, or stop with the same fault. -/
def Obligations.DataMemoryInfluencesNothing : Prop :=
  ∀ (n : Nat) (s : State) (m : Memory) (l : List Nat),
    (∃ t m' l', runCycles n s = .next t ∧
      runCycles n { s with dmem := m, wd := l } = .next { t with dmem := m', wd := l' }) ∨
    (∃ r, runCycles n s = .fault r ∧ runCycles n { s with dmem := m, wd := l } = .fault r)

/-- Where register 0 is hardwired, every run leaves what is stored in it, and it reads as 0
(40_datapath.md R110; the spec's decision D2, log 3). -/
def Obligations.HardwiredZeroStays : Prop :=
  ∀ (n : Nat) (s t : State), s.params.r0Hardwired = true → runCycles n s = .next t →
    t.readReg 0 = 0 ∧ t.regs[0] = s.regs[0]

/-- The self-loop word 0x1000FFFF (30_encoding.md R70): a state whose PC is at it never changes again,
for any number of cycles. -/
def Obligations.SelfLoopWordStaysPut : Prop :=
  ∀ s : State, s.imem[s.pc.toNat]? = some 0x1000FFFF → ∀ n, runCycles n s = .next s

/-! ## The invariant -/

/-- The state after reset satisfies the invariant (10_state.md R20, R29, R31, R32). The model's choice:
the canonical form and the rising order (log 10), what is in the written-sets (D22, log 19), and the
values of the reset state (D5, log 6; log 16). -/
def Obligations.InvariantHoldsAtReset : Prop := State.reset.Inv

/-- Every step keeps the invariant: data memory in canonical form and in range, WD in rising order and
in range, every location never written still at its fill (10_state.md R29, R31, R32; log 10, 19). -/
def Obligations.StepKeepsTheInvariant : Prop :=
  ∀ s t : State, s.Inv → step s = .next t → t.Inv

/-- Canonical memories are equal as lists where they read the same at every address (the representation
is the model's choice, log 10). -/
def Obligations.CanonicalMemoriesAreEqual : Prop :=
  ∀ (fill : Nat → Word) (m m' : Memory), Memory.wf fill m = true → Memory.wf fill m' = true →
    (∀ a, Memory.read fill m a = Memory.read fill m' a) → m = m'

/-! ## Setup and inspection -/

/-- Setup refuses a launch exactly where the program is empty, a word does not parse, or an injection
is out of range (70_reset_and_hazards.md R191 to R193; 60_exceptions.md R184; the spec's decisions
D19 to D21, log 17, 18); else it gives a state. -/
def Obligations.SetupRefusesExactlyBadLaunches : Prop :=
  ∀ l : Launch,
    let bad :=
      l.program = [] ∨ (∃ text ∈ l.program, ∃ why, parseWordText text = .error why) ∨
      (∃ e ∈ l.regInit, 32 ≤ e.1 ∨ 2 ^ 32 ≤ e.2) ∨
      (∃ e ∈ l.dataInit, 2 ^ l.params.dmemAddrWidth.val ≤ e.1 ∨ 2 ^ 32 ≤ e.2)
    (bad → ∃ r, setup l = .refused r) ∧ (¬bad → ∃ s, setup l = .next s)

/-- The state a setup gives (10_state.md R32; the spec's decisions D3, D5, D22, log 4, 6, 19): pc 0, the
program at indices 0, 1, ..., every injected location (each mapped once) at its value and in its
written-set, every other at its fill and in none. -/
def Obligations.SetupGivesTheResetValues : Prop :=
  ∀ (l : Launch) (s : State), setup l = .next s →
    (l.regInit.map Prod.fst).Nodup → (l.dataInit.map Prod.fst).Nodup →
    s.pc = 0 ∧ s.params = l.params ∧ l.program.map parseWordText = s.imem.map Except.ok ∧
    (∀ i : Fin 32, ∀ v, (i.val, v) ∈ l.regInit → s.regs[i] = BitVec.ofNat 32 v ∧ s.wr[i] = true) ∧
    (∀ i : Fin 32, i.val ∉ l.regInit.map Prod.fst →
      s.regs[i] = fillReg l.params i.val ∧ s.wr[i] = false) ∧
    (∀ a v, (a, v) ∈ l.dataInit → s.readData a = BitVec.ofNat 32 v ∧ a ∈ s.wd) ∧
    (∀ a, a ∉ l.dataInit.map Prod.fst → s.readData a = fillData l.params a ∧ a ∉ s.wd)

/-- A setup of a valid program with the default parameters and no injection is the reset state with
that program (the link between State.reset and setup; log 16). -/
def Obligations.ResetIsTheDefaultSetup : Prop :=
  ∀ (ws : List Word), ws ≠ [] →
    setup { params := Params.default, program := ws.map wordText, regInit := [], dataInit := [] } =
      .next { State.reset with imem := ws }

/-- Every state a launch reaches satisfies the invariant (10_state.md R29, R31, R32; R190). The model's
choice: the canonical form and the rising order (log 10), the fills (D5, log 6), and what is in the
written-sets (D22, log 19). -/
def Obligations.ReachableStatesSatisfyTheInvariant : Prop :=
  ∀ (l : Launch) (s t : State), setup l = .next s → Reaches s t → t.Inv

/-- The snapshot of a state lists exactly the written locations with the values they read as
(70_reset_and_hazards.md R198). That a hardwired register 0 shows 0 is deduced (the model's choice,
log 3). -/
def Obligations.SnapshotListsExactlyTheWritten : Prop :=
  ∀ s : State,
    (∀ i v, (i, v) ∈ (inspect s).regs ↔
      ∃ r : RegIdx, r.toNat = i ∧ s.regWritten r = true ∧ v = s.readReg r) ∧
    (∀ a v, (a, v) ∈ (inspect s).data ↔ a ∈ s.wd ∧ v = s.readData a)

/-- The snapshot loses nothing: in every state a launch reaches, a location it does not list holds its
fill (R198; 10_state.md R31, R32; D22, log 19). -/
def Obligations.UnlistedLocationsHoldTheirFill : Prop :=
  ∀ (l : Launch) (s t : State), setup l = .next s → Reaches s t →
    (∀ i : Fin 32, (∀ v, (i.val, v) ∉ (inspect t).regs) → t.regs[i] = fillReg l.params i.val) ∧
    (∀ a, (∀ v, (a, v) ∉ (inspect t).data) → t.readData a = fillData l.params a)

/-! ## The text of words and the assembler -/

/-- The eight-digit text of every word is read back as that word, most significant digit first
(70_reset_and_hazards.md R191; D19, log 17). -/
def Obligations.WordTextIsReadBack : Prop := ∀ w : Word, parseWordText (wordText w) = .ok w

/-- Disassembling a word and assembling the line gives the word back, at any index and with any labels
(30_encoding.md R69; D17, log 22). -/
def Obligations.AssembleOfDisassemble : Prop :=
  ∀ (w : Word) (labels : List (List Char × Nat)) (pc : Nat),
    assemble labels pc (disassemble w) = .ok w

/-- A branch the assembler writes to a label goes there: run at the index it was assembled for, with
equal registers, it takes the PC to the label's index (R69; 44_branch.md R150; D17, log 22). -/
def Obligations.LabelBranchReachesItsLabel : Prop :=
  ∀ (labels : List (List Char × Nat)) (label : List Char) (target : Nat) (rs rt : RegIdx) (w : Word)
    (s : State),
    labelIndex label labels = some target →
    assemble labels s.pc.toNat (.beqLabel rs rt label) = .ok w →
    s.readReg rs = s.readReg rt →
    ∃ t, exec (decode w) s = .next t ∧ WritesOnlyPc s t (BitVec.ofNat 32 target)
end

