-- ==== Sys2Proof/Laws/Decode.lean ====
section
/-! SUPPORT. Fields and words: no bit is lost either way. -/

namespace Sys2Proof

/-- The decoder reads back the fields of the bit picture (30_encoding.md R61). -/
theorem decodeFields_encode (f : Fields) : decodeFields f.encode = f := by
  obtain ⟨op, rs, rt, rd, sh, fn⟩ := f
  simp only [decodeFields, Fields.encode, Fields.mk.injEq]
  refine ⟨?_, ?_, ?_, ?_, ?_, ?_⟩ <;> ext i h <;> simp <;> grind

/-- The bit picture of a word's fields is the word. -/
theorem encode_decodeFields (w : Word) : (decodeFields w).encode = w := by
  unfold Fields.encode decodeFields
  ext i h
  simp only [BitVec.getElem_append, BitVec.getElem_extractLsb']
  grind

/-- An instruction's immediate is read back whole. -/
theorem immediate16_ofImm (op : Code6) (rs rt : RegIdx) (imm : Imm16) :
    (Fields.ofImm op rs rt imm).immediate16 = imm := by
  unfold Fields.immediate16 Fields.ofImm
  ext i h
  simp only [BitVec.getElem_append, BitVec.getElem_extractLsb']
  grind

/-- Fields with an immediate are those of their immediate. -/
theorem ofImm_immediate16 (f : Fields) : Fields.ofImm f.opcode f.rs f.rt f.immediate16 = f := by
  obtain ⟨op, rs, rt, rd, sh, fn⟩ := f
  simp only [Fields.ofImm, Fields.immediate16, Fields.mk.injEq, true_and]
  refine ⟨?_, ?_, ?_⟩ <;> ext i h <;> simp <;> grind

end Sys2Proof
end

