-- ==== Sys2Proof/Laws/Memory.lean ====
section
/-! SUPPORT. The laws of sparse memory and of address sets: what a read after a write gives, and that
every operation keeps the canonical form. -/

namespace Sys2Proof.Machine

variable {fill : Nat → Word}

/-! ### Lookup -/

theorem Memory.lookup_erase (a b : Nat) (m : Memory) :
    Memory.lookup b (Memory.erase a m) = if b = a then none else Memory.lookup b m := by
  induction m with
  | nil => simp [Memory.erase, Memory.lookup]
  | cons c m ih =>
    obtain ⟨k, v⟩ := c
    by_cases hk : k = a <;> by_cases hb : b = a <;> by_cases hkb : k = b <;>
      simp_all [Memory.erase, Memory.lookup]

theorem Memory.lookup_insert (a b : Nat) (v : Word) (m : Memory) (h : Memory.lookup a m = none) :
    Memory.lookup b (Memory.insert a v m) = if b = a then some v else Memory.lookup b m := by
  induction m with
  | nil => simp [Memory.insert, Memory.lookup, eq_comm]
  | cons c m ih =>
    obtain ⟨k, u⟩ := c
    by_cases hka : k = a
    · simp [Memory.lookup, hka] at h
    · have h' : Memory.lookup a m = none := by simpa [Memory.lookup, hka] using h
      by_cases hlt : a < k
      · by_cases hb : b = a
        · simp [Memory.insert, Memory.lookup, hlt, hb]
        · simp [Memory.insert, Memory.lookup, hlt, hb, Ne.symm hb]
      · by_cases hkb : k = b
        · subst hkb
          simp [Memory.insert, Memory.lookup, hlt, hka]
        · simp [Memory.insert, Memory.lookup, hlt, hkb, ih h']

/-! ### Read after write -/

theorem Memory.read_write (m : Memory) (a b : Nat) (v : Word) :
    Memory.read fill (Memory.write fill m a v) b = if b = a then v else Memory.read fill m b := by
  have hn : Memory.lookup a (Memory.erase a m) = none := by simp [Memory.lookup_erase]
  unfold Memory.read Memory.write
  split
  · rename_i hv
    by_cases hb : b = a <;> simp [Memory.lookup_erase, hb, hv]
  · rw [Memory.lookup_insert _ _ _ _ hn, Memory.lookup_erase]
    by_cases hb : b = a <;> simp [hb]

/-- An address is listed after a write only if it was listed or is the address written. -/
theorem Memory.lookup_write_isSome (m : Memory) (a b : Nat) (v : Word)
    (h : (Memory.lookup b (Memory.write fill m a v)).isSome) :
    b = a ∨ (Memory.lookup b m).isSome := by
  have hn : Memory.lookup a (Memory.erase a m) = none := by simp [Memory.lookup_erase]
  unfold Memory.write at h
  by_cases hb : b = a
  · exact .inl hb
  · right
    split at h
    · simpa [Memory.lookup_erase, hb] using h
    · simpa [Memory.lookup_insert _ _ _ _ hn, Memory.lookup_erase, hb] using h

/-! ### The canonical form -/

theorem Memory.wfFrom_mono {lo lo' : Nat} (hle : lo' ≤ lo) (m : Memory)
    (h : Memory.wfFrom fill lo m = true) : Memory.wfFrom fill lo' m = true := by
  cases m with
  | nil => rfl
  | cons c m =>
    simp only [Memory.wfFrom, Bool.and_eq_true, decide_eq_true_eq] at h ⊢
    exact ⟨⟨by omega, h.1.2⟩, h.2⟩

theorem Memory.wfFrom_erase (a lo : Nat) (m : Memory) (h : Memory.wfFrom fill lo m = true) :
    Memory.wfFrom fill lo (Memory.erase a m) = true := by
  induction m generalizing lo with
  | nil => rfl
  | cons c m ih =>
    obtain ⟨k, v⟩ := c
    simp only [Memory.wfFrom, Bool.and_eq_true, decide_eq_true_eq] at h
    by_cases hk : k = a
    · simp only [Memory.erase, if_pos hk]
      exact Memory.wfFrom_mono (by omega) _ (ih _ h.2)
    · simp only [Memory.erase, if_neg hk, Memory.wfFrom, Bool.and_eq_true, decide_eq_true_eq]
      exact ⟨h.1, ih _ h.2⟩

theorem Memory.wfFrom_insert (a lo : Nat) (v : Word) (m : Memory) (hlo : lo ≤ a) (hv : v ≠ fill a)
    (hn : Memory.lookup a m = none) (h : Memory.wfFrom fill lo m = true) :
    Memory.wfFrom fill lo (Memory.insert a v m) = true := by
  induction m generalizing lo with
  | nil => simp [Memory.insert, Memory.wfFrom, hlo, hv]
  | cons c m ih =>
    obtain ⟨k, u⟩ := c
    have hka : k ≠ a := by
      rintro rfl
      simp [Memory.lookup] at hn
    have hn' : Memory.lookup a m = none := by simpa [Memory.lookup, hka] using hn
    simp only [Memory.wfFrom, Bool.and_eq_true, decide_eq_true_eq] at h
    by_cases hlt : a < k
    · simp only [Memory.insert, if_pos hlt, Memory.wfFrom, Bool.and_eq_true, decide_eq_true_eq]
      exact ⟨⟨hlo, hv⟩, ⟨by omega, h.1.2⟩, h.2⟩
    · simp only [Memory.insert, if_neg hlt, Memory.wfFrom, Bool.and_eq_true, decide_eq_true_eq]
      exact ⟨h.1, ih _ (by omega) hn' h.2⟩

/-- A write keeps the canonical form. -/
theorem Memory.wf_write (m : Memory) (a : Nat) (v : Word) (h : Memory.wf fill m = true) :
    Memory.wf fill (Memory.write fill m a v) = true := by
  have he := Memory.wfFrom_erase a 0 m h
  unfold Memory.write Memory.wf
  split
  · exact he
  · rename_i hv
    exact Memory.wfFrom_insert a 0 v _ (Nat.zero_le _) hv (by simp [Memory.lookup_erase]) he

/-- The memory after reset has the canonical form, whatever the fill. -/
theorem Memory.wf_reset : Memory.wf fill State.reset.dmem = true := rfl

/-- In the canonical form an address below the first is not listed. -/
theorem Memory.lookup_below {lo a : Nat} (m : Memory) (h : Memory.wfFrom fill lo m = true)
    (ha : a < lo) : Memory.lookup a m = none := by
  induction m generalizing lo with
  | nil => rfl
  | cons c m ih =>
    obtain ⟨k, v⟩ := c
    simp only [Memory.wfFrom, Bool.and_eq_true, decide_eq_true_eq] at h
    simp only [Memory.lookup]
    rw [if_neg (by omega)]
    exact ih h.2 (by omega)

/-- In the canonical form no listed word is the fill. -/
theorem Memory.lookup_ne_fill {lo a : Nat} {v : Word} (m : Memory)
    (h : Memory.wfFrom fill lo m = true) (hl : Memory.lookup a m = some v) : v ≠ fill a := by
  induction m generalizing lo with
  | nil => simp [Memory.lookup] at hl
  | cons c m ih =>
    obtain ⟨k, u⟩ := c
    simp only [Memory.wfFrom, Bool.and_eq_true, decide_eq_true_eq] at h
    by_cases hk : k = a
    · subst hk
      simp only [Memory.lookup, if_true, Option.some.injEq] at hl
      exact hl ▸ h.1.2
    · exact ih h.2 (by simpa [Memory.lookup, hk] using hl)

/-! ### Address sets -/

theorem mem_insertKey (a b : Nat) (l : List Nat) : b ∈ insertKey a l ↔ b = a ∨ b ∈ l := by
  induction l with
  | nil => simp [insertKey]
  | cons k l ih =>
    by_cases h1 : a < k
    · simp [insertKey, h1]
    · by_cases h2 : a = k
      · subst h2
        simp [insertKey]
      · simp only [insertKey, h1, h2, if_false, List.mem_cons, ih]
        tauto

theorem risingFrom_insertKey (a lo : Nat) (l : List Nat) (hlo : lo ≤ a)
    (h : risingFrom lo l = true) : risingFrom lo (insertKey a l) = true := by
  induction l generalizing lo with
  | nil => simp [insertKey, risingFrom, hlo]
  | cons k l ih =>
    have h' := h
    simp only [risingFrom, Bool.and_eq_true, decide_eq_true_eq] at h
    by_cases h1 : a < k
    · simp only [insertKey, if_pos h1, risingFrom, Bool.and_eq_true, decide_eq_true_eq]
      exact ⟨hlo, by omega, h.2⟩
    · by_cases h2 : a = k
      · simpa only [insertKey, if_neg h1, if_pos h2] using h'
      · simp only [insertKey, if_neg h1, if_neg h2, risingFrom, Bool.and_eq_true, decide_eq_true_eq]
        exact ⟨h.1, ih _ (by omega) h.2⟩

end Sys2Proof.Machine
end

