-- ==== Sys2Proof/Laws/State.lean ====
section
/-! SUPPORT. One lemma per field per update of State. -/

namespace Sys2Proof.Machine

variable (s : State) (r : RegIdx) (a : Nat) (v : Word)

@[simp] theorem writeReg_params : (s.writeReg r v).params = s.params := rfl
@[simp] theorem writeReg_pc : (s.writeReg r v).pc = s.pc := rfl
@[simp] theorem writeReg_dmem : (s.writeReg r v).dmem = s.dmem := rfl
@[simp] theorem writeReg_imem : (s.writeReg r v).imem = s.imem := rfl
@[simp] theorem writeReg_wd : (s.writeReg r v).wd = s.wd := rfl
@[simp] theorem writeReg_wr : (s.writeReg r v).wr = s.wr.set r.toNat true r.isLt := rfl

@[simp] theorem writeData_params : (s.writeData a v).params = s.params := rfl
@[simp] theorem writeData_pc : (s.writeData a v).pc = s.pc := rfl
@[simp] theorem writeData_regs : (s.writeData a v).regs = s.regs := rfl
@[simp] theorem writeData_imem : (s.writeData a v).imem = s.imem := rfl
@[simp] theorem writeData_wr : (s.writeData a v).wr = s.wr := rfl
@[simp] theorem writeData_wd : (s.writeData a v).wd = insertKey a s.wd := rfl

variable (nbits w : Nat)

@[simp] theorem withFetchWord_params : (s.withFetchWord nbits w).params = s.params := rfl
@[simp] theorem withFetchWord_pc : (s.withFetchWord nbits w).pc = s.pc := rfl
@[simp] theorem withFetchWord_regs : (s.withFetchWord nbits w).regs = s.regs := rfl
@[simp] theorem withFetchWord_dmem : (s.withFetchWord nbits w).dmem = s.dmem := rfl
@[simp] theorem withFetchWord_wr : (s.withFetchWord nbits w).wr = s.wr := rfl
@[simp] theorem withFetchWord_wd : (s.withFetchWord nbits w).wd = s.wd := rfl

/-! The observers, of a state in which only the PC differs. -/

@[simp] theorem readReg_setPc (p : Word) : ({ s with pc := p } : State).readReg r = s.readReg r := rfl
@[simp] theorem regWritten_setPc (p : Word) :
    ({ s with pc := p } : State).regWritten r = s.regWritten r := rfl
@[simp] theorem readData_setPc (p : Word) : ({ s with pc := p } : State).readData a = s.readData a := rfl

end Sys2Proof.Machine
end

