-- ==== Sys2Proof/Laws/Ops.lean ====
section
/-! SUPPORT. What each named operation does, said once. -/

namespace Sys2Proof.Machine

/-- The stored register file after a register write. -/
theorem regs_writeReg (s : State) (q r : RegIdx) (v : Word) :
    (s.writeReg q v).regs[r.toNat]'(r.isLt) =
      if r = q ∧ hardwiredZero s.params q = false then v else s.regs[r.toNat]'(r.isLt) := by
  have hne : r ≠ q → q.toNat ≠ r.toNat := fun h e => h (BitVec.eq_of_toNat_eq e.symm)
  unfold State.writeReg
  cases h0 : hardwiredZero s.params q
  · by_cases hr : r = q
    · subst hr
      simp
    · simp [hr, Vector.getElem_set_ne, hne hr]
  · simp

/-- A register read after a register write: the value written, at its own index, unless register 0
is hardwired (R108, R110). -/
theorem readReg_writeReg (s : State) (q r : RegIdx) (v : Word) :
    (s.writeReg q v).readReg r =
      if r = q ∧ hardwiredZero s.params q = false then v else s.readReg r := by
  unfold State.readReg
  rw [writeReg_params, regs_writeReg]
  by_cases hr : r = q
  · subst hr
    cases hardwiredZero s.params r <;> simp
  · simp [hr]

theorem regWritten_writeReg (s : State) (q r : RegIdx) (v : Word) :
    (s.writeReg q v).regWritten r = (decide (r = q) || s.regWritten r) := by
  by_cases hr : r = q
  · subst hr
    simp [State.regWritten]
  · have hne : q.toNat ≠ r.toNat := fun e => hr (BitVec.eq_of_toNat_eq e.symm)
    simp [State.regWritten, hr, Vector.getElem_set_ne, hne]

@[simp] theorem readData_writeReg (s : State) (q : RegIdx) (v : Word) (a : Nat) :
    (s.writeReg q v).readData a = s.readData a := rfl

/-- A data read after a data write. -/
theorem readData_writeData (s : State) (a b : Nat) (v : Word) :
    (s.writeData a v).readData b = if b = a then v else s.readData b :=
  Memory.read_write s.dmem a b v

@[simp] theorem readReg_writeData (s : State) (a : Nat) (v : Word) (r : RegIdx) :
    (s.writeData a v).readReg r = s.readReg r := rfl

@[simp] theorem regWritten_writeData (s : State) (a : Nat) (v : Word) (r : RegIdx) :
    (s.writeData a v).regWritten r = s.regWritten r := rfl

theorem wd_writeData (s : State) (a b : Nat) (v : Word) :
    b ∈ (s.writeData a v).wd ↔ b = a ∨ b ∈ s.wd :=
  mem_insertKey a b s.wd

/-- Everything a fetch can do (10_state.md R28). -/
theorem fetch_cases (s : State) :
    (∃ w, s.imem[s.pc.toNat]? = some w ∧ s.fetch = .ok w) ∨
    (s.imemSize ≤ s.pc.toNat ∧ s.params.unloadedFetch = .zero ∧ s.fetch = .ok 0) ∨
    (s.imemSize ≤ s.pc.toNat ∧ s.params.unloadedFetch = .fault ∧
      s.fetch = .error (.unloadedFetch s.pc)) := by
  unfold State.fetch
  rcases h : s.imem[s.pc.toNat]? with _ | w
  · have hlen : s.imemSize ≤ s.pc.toNat := List.getElem?_eq_none_iff.mp h
    cases hp : s.params.unloadedFetch
    · exact .inr (.inl ⟨hlen, rfl, rfl⟩)
    · exact .inr (.inr ⟨hlen, rfl, rfl⟩)
  · exact .inl ⟨w, rfl, rfl⟩

theorem getElem?_setPadded (l : List Word) (n : Nat) (v : Word) : (setPadded l n v)[n]? = some v := by
  unfold setPadded
  split
  · rename_i h
    simp [h]
  · rename_i h
    rw [List.getElem?_append_right (by simp; omega)]
    have h0 : n - (l ++ List.replicate (n - l.length) (0 : Word)).length = 0 := by
      simp only [List.length_append, List.length_replicate]
      omega
    rw [h0]
    rfl

/-- The next fetch of a state with a fetch word gives that word. -/
theorem fetch_withFetchWord (s : State) (nbits w : Nat) :
    (s.withFetchWord nbits w).fetch = .ok (BitVec.ofNat 32 (w % 2 ^ nbits)) := by
  unfold State.fetch State.withFetchWord
  simp only [getElem?_setPadded]

end Sys2Proof.Machine
end

