-- ==== Sys2Proof/Laws/Cycle.lean ====
section
/-! SUPPORT. What the datapath's cycle does under each kind of row, and from it the next state of each
instruction, in the spec's own pseudocode (41_rtype.md to 45_inert.md). Provers cite these. -/

namespace Sys2Proof.Machine

/-- A row that writes a register and cannot branch. -/
theorem cycle_regWrite (c : ControlSignals) (f : Fields) (s : State) (hr : c.regWrite = true)
    (hm : c.memWrite = false) (hb : c.branchEnable = false) :
    cycle c f s =
      { s.writeReg (destinationRegister c f)
          (aluResult c.aluOp (operandA f s) (operandB c f s) f.shiftAmount) with pc := s.pc + 1 } := by
  simp [cycle, writeback, nextPc, hr, hm, hb]

/-- A row that writes data memory and cannot branch. -/
theorem cycle_memWrite (c : ControlSignals) (f : Fields) (s : State) (hr : c.regWrite = false)
    (hm : c.memWrite = true) (hb : c.branchEnable = false) :
    cycle c f s =
      { s.writeData (destinationRegister c f).toNat
          (aluResult c.aluOp (operandA f s) (operandB c f s) f.shiftAmount) with pc := s.pc + 1 } := by
  simp [cycle, writeback, nextPc, hr, hm, hb]

/-- A row that writes nothing. -/
theorem cycle_noWrite (c : ControlSignals) (f : Fields) (s : State) (hr : c.regWrite = false)
    (hm : c.memWrite = false) :
    cycle c f s =
      { s with
        pc := nextPc s.pc c.branchEnable
          (aluZeroFlag c.aluOp (operandA f s) (operandB c f s)) (branchOffset f) } := by
  simp [cycle, writeback, hr, hm]

theorem execAdd_eq (rs rt rd : RegIdx) (sh : Shamt) (s : State) :
    execAdd rs rt rd sh s =
      .next { s.writeReg rd (s.readReg rs + s.readReg rd) with pc := s.pc + 1 } := rfl

theorem execAnd_eq (rs rt rd : RegIdx) (sh : Shamt) (s : State) :
    execAnd rs rt rd sh s =
      .next { s.writeReg rd (s.readReg rs &&& s.readReg rd) with pc := s.pc + 1 } := rfl

theorem execSlt_eq (rs rt rd : RegIdx) (sh : Shamt) (s : State) :
    execSlt rs rt rd sh s =
      .next { s.writeReg rd (if (s.readReg rd).toNat < (s.readReg rs).toNat then 1 else 0) with
        pc := s.pc + 1 } := rfl

/-- Operand B of addi in each variant (42_imm_alu.md R132). -/
def addiOperandB (rt : RegIdx) (imm : Imm16) (s : State) : Word :=
  match s.params.addiAluSrc with
  | .src0 => s.readReg rt
  | .src1 => sext32 imm
  | .src2 => zext32 imm

theorem execAddi_eq (rs rt : RegIdx) (imm : Imm16) (s : State) :
    execAddi rs rt imm s =
      .next { s.writeReg rt (s.readReg rs + addiOperandB rt imm s) with pc := s.pc + 1 } := by
  have hb : operandB (rowAddi s.params) (Fields.ofImm 0x08 rs rt imm) s = addiOperandB rt imm s := by
    unfold operandB addiOperandB rowAddi addiAluSrcCode
    cases s.params.addiAluSrc
    · rfl
    · simp [immediate16_ofImm]
    · simp [immediate16_ofImm]
  unfold execAddi
  rw [cycle_regWrite _ _ _ rfl rfl rfl, hb]
  rfl

theorem execLui_eq (rs rt : RegIdx) (imm : Imm16) (s : State) :
    execLui rs rt imm s =
      .next { s.writeReg rt (zext32 imm <<< (imm.extractLsb' 6 5).toNat) with pc := s.pc + 1 } := by
  have hb : operandB rowLui (Fields.ofImm 0x0F rs rt imm) s = zext32 imm := by
    simp [operandB, rowLui, immediate16_ofImm]
  unfold execLui
  rw [cycle_regWrite _ _ _ rfl rfl rfl, hb]
  rfl

theorem execLw_eq (rs rt : RegIdx) (imm : Imm16) (s : State) :
    execLw rs rt imm s =
      .next { s.writeReg rt (s.readReg rs + sext32 imm) with pc := s.pc + 1 } := by
  have hb : operandB rowLw (Fields.ofImm 0x23 rs rt imm) s = sext32 imm := by
    simp [operandB, rowLw, immediate16_ofImm]
  unfold execLw
  rw [cycle_regWrite _ _ _ rfl rfl rfl, hb]
  rfl

theorem execSw_eq (rs rt : RegIdx) (imm : Imm16) (s : State) :
    execSw rs rt imm s =
      .next { s.writeData rt.toNat (s.readReg rs + sext32 imm) with pc := s.pc + 1 } := by
  have hb : operandB rowSw (Fields.ofImm 0x2B rs rt imm) s = sext32 imm := by
    simp [operandB, rowSw, immediate16_ofImm]
  unfold execSw
  rw [cycle_memWrite _ _ _ rfl rfl rfl, hb]
  rfl

theorem execBeq_eq (rs rt : RegIdx) (imm : Imm16) (s : State) :
    execBeq rs rt imm s =
      .next { s with
        pc := if s.readReg rs = s.readReg rt then s.pc + sext32 imm + 1 else s.pc + 1 } := by
  have hz : aluZeroFlag rowBeq.aluOp (s.readReg rs) (s.readReg rt) =
      decide (s.readReg rs = s.readReg rt) := by
    have h : (s.readReg rs - s.readReg rt = 0) ↔ (s.readReg rs = s.readReg rt) :=
      sub_eq_zero
    simp only [aluZeroFlag, h]
    rfl
  have ho : branchOffset (Fields.ofImm 0x04 rs rt imm) = sext32 imm := by
    simp [branchOffset, immediate16_ofImm]
  have hb : operandB rowBeq (Fields.ofImm 0x04 rs rt imm) s = s.readReg rt := rfl
  have ha : operandA (Fields.ofImm 0x04 rs rt imm) s = s.readReg rs := rfl
  unfold execBeq
  rw [cycle_noWrite _ _ _ rfl rfl, ha, hb, hz, ho]
  simp [nextPc, rowBeq]

theorem execInert_eq (f : Fields) (s : State) :
    execInert f s = .next { s with pc := s.pc + 1 } := rfl

/-- Everything an instruction can do, said once: one register write, one write of a data-memory word
below address 32, or no write; the PC advances by one unless it is a beq of equal registers. -/
theorem exec_next_cases {i : Instr} {s t : State} (h : exec i s = .next t) :
    (∃ q v, t = { s.writeReg q v with pc := s.pc + 1 }) ∨
    (∃ (q : RegIdx) (v : Word), t = { s.writeData q.toNat v with pc := s.pc + 1 }) ∨
    t = { s with pc := s.pc + 1 } ∨
    ∃ rs rt imm, i = .beq rs rt imm ∧ s.readReg rs = s.readReg rt ∧
      t = { s with pc := s.pc + sext32 imm + 1 } := by
  cases i with
  | add rs rt rd sh =>
    rw [show exec (.add rs rt rd sh) s = _ from execAdd_eq rs rt rd sh s] at h
    cases h
    exact .inl ⟨_, _, rfl⟩
  | and rs rt rd sh =>
    rw [show exec (.and rs rt rd sh) s = _ from execAnd_eq rs rt rd sh s] at h
    cases h
    exact .inl ⟨_, _, rfl⟩
  | slt rs rt rd sh =>
    rw [show exec (.slt rs rt rd sh) s = _ from execSlt_eq rs rt rd sh s] at h
    cases h
    exact .inl ⟨_, _, rfl⟩
  | addi rs rt imm =>
    rw [show exec (.addi rs rt imm) s = _ from execAddi_eq rs rt imm s] at h
    cases h
    exact .inl ⟨_, _, rfl⟩
  | lui rs rt imm =>
    rw [show exec (.lui rs rt imm) s = _ from execLui_eq rs rt imm s] at h
    cases h
    exact .inl ⟨_, _, rfl⟩
  | lw rs rt imm =>
    rw [show exec (.lw rs rt imm) s = _ from execLw_eq rs rt imm s] at h
    cases h
    exact .inl ⟨_, _, rfl⟩
  | sw rs rt imm =>
    rw [show exec (.sw rs rt imm) s = _ from execSw_eq rs rt imm s] at h
    cases h
    exact .inr (.inl ⟨_, _, rfl⟩)
  | beq rs rt imm =>
    rw [show exec (.beq rs rt imm) s = _ from execBeq_eq rs rt imm s] at h
    cases h
    by_cases he : s.readReg rs = s.readReg rt
    · exact .inr (.inr (.inr ⟨rs, rt, imm, rfl, he, by rw [if_pos he]⟩))
    · exact .inr (.inr (.inl (by rw [if_neg he])))
  | inert f =>
    rw [show exec (.inert f) s = _ from execInert_eq f s] at h
    cases h
    exact .inr (.inr (.inl rfl))

end Sys2Proof.Machine
end

