-- ==== Sys2Proof/Laws/PerInstr.lean ====
section
/-! SUPPORT. The per-instruction family EncodeSelects: an instruction's word carries its row's codes. -/

namespace Sys2Proof.Laws.EncodeSelects

/-- The decoder reads, from the word of `i`, the fields of `i`: its row's opcode and function code
and its own operands. -/
def Statement (i : Instr) : Prop := decodeFields (encode i) = i.fields

theorem add (rs rt rd : RegIdx) (sh : Shamt) : Statement (.add rs rt rd sh) := decodeFields_encode _
theorem and (rs rt rd : RegIdx) (sh : Shamt) : Statement (.and rs rt rd sh) := decodeFields_encode _
theorem slt (rs rt rd : RegIdx) (sh : Shamt) : Statement (.slt rs rt rd sh) := decodeFields_encode _
theorem addi (rs rt : RegIdx) (imm : Imm16) : Statement (.addi rs rt imm) := decodeFields_encode _
theorem lui (rs rt : RegIdx) (imm : Imm16) : Statement (.lui rs rt imm) := decodeFields_encode _
theorem lw (rs rt : RegIdx) (imm : Imm16) : Statement (.lw rs rt imm) := decodeFields_encode _
theorem sw (rs rt : RegIdx) (imm : Imm16) : Statement (.sw rs rt imm) := decodeFields_encode _
theorem beq (rs rt : RegIdx) (imm : Imm16) : Statement (.beq rs rt imm) := decodeFields_encode _
theorem inert (f : Fields) : Statement (.inert f) := decodeFields_encode _

end Sys2Proof.Laws.EncodeSelects
end

