-- ==== Sys2Proof/Laws/Run.lean ====
section
/-! SUPPORT. Steps and runs: the inversion of a step, the equations of a run, and the induction over a
run, once. -/

namespace Sys2Proof.Machine

/-- A step that answers a next state fetched a word and ran its instruction. -/
theorem step_next {s t : State} (h : step s = .next t) :
    ∃ w, s.fetch = .ok w ∧ exec (decode w) s = .next t := by
  unfold step at h
  cases hf : s.fetch with
  | ok w => exact ⟨w, rfl, by simpa only [hf] using h⟩
  | error r =>
    rw [hf] at h
    cases h

/-- A step at a fetched word is that word's instruction. -/
theorem step_of_fetch {s : State} {w : Word} (h : s.fetch = .ok w) : step s = exec (decode w) s := by
  simp only [step, h]

theorem runCycles_zero (s : State) : runCycles 0 s = .next s := rfl

/-- The equation of the host's run, for any machine. -/
theorem hostRun_succ (M : Host.Core) (n : Nat) (s : M.State) :
    M.run (n + 1) s =
      match M.step s with
      | .next s' => M.run n s'
      | .fault r => .fault r
      | .refused r => .refused r := rfl

theorem runCycles_succ_next {n : Nat} {s t : State} (h : step s = .next t) :
    runCycles (n + 1) s = runCycles n t := by
  refine (hostRun_succ core n s).trans ?_
  rw [show core.step s = .next t from h]
  rfl

theorem runCycles_succ_fault {n : Nat} {s : State} {r : Fault} (h : step s = .fault r) :
    runCycles (n + 1) s = .fault r := by
  refine (hostRun_succ core n s).trans ?_
  rw [show core.step s = .fault r from h]
  rfl

theorem runCycles_succ_refused {n : Nat} {s : State} {r : Refusal} (h : step s = .refused r) :
    runCycles (n + 1) s = .refused r := by
  refine (hostRun_succ core n s).trans ?_
  rw [show core.step s = .refused r from h]
  rfl

/-- A relation that holds of a state and itself, and that a step before it keeps, holds over every run. -/
theorem runCycles_induction {P : State → State → Prop} (refl : ∀ s, P s s)
    (back : ∀ s t u, step s = .next t → P t u → P s u) :
    ∀ (n : Nat) (s t : State), runCycles n s = .next t → P s t := by
  intro n
  induction n with
  | zero =>
    intro s t h
    cases h
    exact refl s
  | succ n ih =>
    intro s t h
    cases hs : step s with
    | next u =>
      rw [runCycles_succ_next hs] at h
      exact back _ _ _ hs (ih _ _ h)
    | fault r =>
      rw [runCycles_succ_fault hs] at h
      cases h
    | refused r =>
      rw [runCycles_succ_refused hs] at h
      cases h

end Sys2Proof.Machine
end

