-- ==== Sys2Proof/Laws/Setup.lean ====
section
/-! SUPPORT. What setup and each of its injections do where they succeed. -/

namespace Sys2Proof.Machine

/-- An injected register that is accepted. -/
theorem injectReg_ok {s t : State} {i v : Nat} (h : injectReg s i v = .ok t) :
    ∃ hi : i < 32, v < 2 ^ 32 ∧
      t = { s with regs := s.regs.set i (BitVec.ofNat 32 v) hi, wr := s.wr.set i true hi } := by
  unfold injectReg at h
  split_ifs at h with hi hv
  cases h
  exact ⟨hi, hv, rfl⟩

/-- An injected word of data memory that is accepted. -/
theorem injectData_ok {s t : State} {a v : Nat} (h : injectData s a v = .ok t) :
    a < 2 ^ s.params.dmemAddrWidth.val ∧ v < 2 ^ 32 ∧ t = s.writeData a (BitVec.ofNat 32 v) := by
  unfold injectData at h
  split_ifs at h with ha hv
  cases h
  exact ⟨ha, hv, rfl⟩

/-- What every accepted injection keeps, the whole list of them keeps. -/
theorem injectAll_induction {inject : State → Nat → Nat → Except Refusal State} {P : State → Prop}
    (keep : ∀ s k v t, P s → inject s k v = .ok t → P t) (l : List (Nat × Nat)) {s t : State}
    (hs : P s) (h : injectAll inject s l = .ok t) : P t := by
  induction l generalizing s with
  | nil =>
    cases h
    exact hs
  | cons e l ih =>
    obtain ⟨k, v⟩ := e
    simp only [injectAll] at h
    cases hk : inject s k v with
    | error r =>
      rw [hk] at h
      cases h
    | ok u =>
      rw [hk] at h
      exact ih (keep _ _ _ _ hs hk) h

/-- A setup that gives a state loaded a program and made every injection. -/
theorem setup_next {l : Launch} {s : State} (h : setup l = .next s) :
    ∃ imem s₁, loadProgram l.program = .ok imem ∧
      injectAll injectReg (initialState l.params imem) l.regInit = .ok s₁ ∧
      injectAll injectData s₁ l.dataInit = .ok s := by
  unfold setup at h
  cases hp : loadProgram l.program with
  | error r =>
    rw [hp] at h
    cases h
  | ok imem =>
    simp only [hp] at h
    cases hr : injectAll injectReg (initialState l.params imem) l.regInit with
    | error r =>
      rw [hr] at h
      cases h
    | ok s₁ =>
      simp only [hr] at h
      cases hd : injectAll injectData s₁ l.dataInit with
      | error r =>
        rw [hd] at h
        cases h
      | ok s₂ =>
        rw [hd] at h
        cases h
        exact ⟨imem, s₁, rfl, hr, hd⟩

end Sys2Proof.Machine
end

