-- ==== Sys2Proof/Tests/Slice0.lean ====
section
/-! SUPPORT. The model's own tests, their expected results taken from spec/95_test_vectors.md or worked
by hand from the rules, and a witness for the hypotheses of each statement. -/

namespace Sys2Proof.Tests

open Sys2Proof.Machine Sys2Proof.Spec

/-- The reset state with some registers written. -/
def withRegs (rs : List (RegIdx × Word)) (s : State := State.reset) : State :=
  rs.foldl (fun s e => s.writeReg e.1 e.2) s

/-- An observation of the next state, if there is one. -/
def seen {α : Type} (f : State → α) : Host.Outcome State Fault Refusal → Option α
  | .next t => some (f t)
  | .fault _ => none
  | .refused _ => none

def faultOf : Host.Outcome State Fault Refusal → Option Fault
  | .fault r => some r
  | .next _ => none
  | .refused _ => none

def refusalOf : Host.Outcome State Fault Refusal → Option Refusal
  | .refused r => some r
  | .next _ => none
  | .fault _ => none

def withParams (p : Params) : State := { State.reset with params := p }

/-! ### WellFormed: an ill-formed term of each kind is refused -/

/-- addi's opcode (R64). -/
theorem test_wellFormed_refuses_inert_opcode :
    (Instr.inert ⟨0x08, 0, 0, 0, 0, 0⟩).wellFormed = false := by decide
/-- add's function code under opcode 0x00 (R64). -/
theorem test_wellFormed_refuses_inert_funct :
    (Instr.inert ⟨0x00, 0, 0, 0, 0, 0x20⟩).wellFormed = false := by decide
/-- add's function code under another opcode is not consulted (R65). -/
theorem test_wellFormed_admits_other_opcode :
    (Instr.inert ⟨0x02, 0, 0, 0, 0, 0x20⟩).wellFormed = true := by decide

/-! ### Decode: words written out from the bit pictures of R61, R69 -/

theorem test_decode_add : decode 0b000000_00110_00111_00101_11111_100000 = .add 6 7 5 31 := by decide
theorem test_decode_and : decode 0b000000_00011_00010_00011_00000_100100 = .and 3 2 3 0 := by decide
theorem test_decode_slt : decode 0b000000_00001_00010_00011_00000_101010 = .slt 1 2 3 0 := by decide
theorem test_decode_addi : decode 0b001000_00001_00000_1111111111111010 = .addi 1 0 0xFFFA := by decide
theorem test_decode_lui : decode 0b001111_00011_00010_0001001000110100 = .lui 3 2 0x1234 := by decide
/-- The function code 0x2A does not make a lw word a slt (95_test_vectors.md 2.2). -/
theorem test_decode_lw : decode 0b100011_00001_00010_0000000000101010 = .lw 1 2 0x2A := by decide
theorem test_decode_sw : decode 0b101011_00000_11111_0000000000000000 = .sw 0 31 0 := by decide
theorem test_decode_beq : decode 0b000100_00000_01011_0000000000000000 = .beq 0 11 0 := by decide
/-- MIPS j (95_test_vectors.md L1-2). -/
theorem test_decode_inert : decode 0x08000005 = .inert ⟨2, 0, 0, 0, 0, 5⟩ := by decide
theorem test_decode_inert_funct : decode 0x00221822 = .inert ⟨0, 1, 2, 3, 0, 0x22⟩ := by decide
theorem test_encode_add : encode (.add 8 9 10 0) = 0x01095020 := by decide
theorem test_encode_beq : encode (.beq 0 0 0xFFFC) = 0x1000FFFC := by decide
theorem test_tableWord : decodeTableWord 32 0x20010003 = some (.addi 0 1 3) := by decide
theorem test_tableWord_short : decodeTableWord 8 0x20 = some (.add 0 0 0 0) := by decide

/-! ### ALU operations no instruction reaches (95_test_vectors.md 2.4) -/

theorem test_alu_or : aluResult 2 0xF0F0F0F0 0x0F0F0F0F 0 = 0xFFFFFFFF := by decide
theorem test_alu_op6 : aluResult 6 1 2 3 = 0 ∧ aluZeroFlag 6 1 1 = false := by decide

/-! ### Instructions, one step each (95_test_vectors.md 2.6; the vector is named) -/

/-- L1-4: B is R3, not R2. -/
theorem test_add_reads_rd : seen (fun t => (t.readReg 3, t.pc))
    (exec (.add 1 2 3 0) (withRegs [(1, 2), (2, 3), (3, 7)])) = some (9, 1) := by decide
/-- V2: rs = rd, both reads before the write, wrap. -/
theorem test_add_same_register : seen (fun t => t.readReg 1)
    (exec (.add 1 9 1 0) (withRegs [(1, 0x80000001)])) = some 2 := by decide
/-- V5. -/
theorem test_and : seen (fun t => t.readReg 3)
    (exec (.and 1 2 3 0) (withRegs [(1, 0xFF00FF00), (2, 0x12345678), (3, 0x0F0F0F0F)])) =
    some 0x0F000F00 := by decide
/-- V6: an unchanged value is still a write (R121). -/
theorem test_and_enters_wr : seen (fun t => t.regWritten 3)
    (exec (.and 3 2 3 0) State.reset) = some true := by decide
/-- L1-6: reversed. -/
theorem test_slt_reversed : seen (fun t => t.readReg 2)
    (exec (.slt 1 9 2 0) (withRegs [(1, 1), (2, 5)])) = some 0 := by decide
/-- V9: unsigned. -/
theorem test_slt_unsigned : seen (fun t => t.readReg 3)
    (exec (.slt 1 2 3 0) (withRegs [(1, 0xFFFFFFFF), (3, 0x7FFFFFFF)])) = some 1 := by decide
/-- L1-5: a negative immediate, into register 0. -/
theorem test_addi_writes_register0 : seen (fun t => t.readReg 0)
    (exec (.addi 1 0 0xFFFA) (withRegs [(1, 5)])) = some 0xFFFFFFFF := by decide
/-- VP1 to VP3. -/
theorem test_addi_variants :
    seen (fun t => t.readReg 2) (exec (.addi 1 2 0x8001) (withRegs [(1, 0x10), (2, 3)]
      (withParams { Params.default with addiAluSrc := .src0 }))) = some 0x13 ∧
    seen (fun t => t.readReg 2) (exec (.addi 1 2 0x8001) (withRegs [(1, 0x10), (2, 3)])) =
      some 0xFFFF8011 ∧
    seen (fun t => t.readReg 2) (exec (.addi 1 2 0x8001) (withRegs [(1, 0x10), (2, 3)]
      (withParams { Params.default with addiAluSrc := .src2 }))) = some 0x8011 := by decide
/-- V18: shift 31, bits lost. -/
theorem test_lui_shift31 : seen (fun t => t.readReg 2) (exec (.lui 0 2 0xFFFF) State.reset) =
    some 0x80000000 := by decide
/-- V19: rs unused. -/
theorem test_lui_ignores_rs : seen (fun t => t.readReg 2)
    (exec (.lui 3 2 0x1234) (withRegs [(3, 0xFFFFFFFF)])) = some 0x00123400 := by decide
/-- V20: the sum, not the memory word. -/
theorem test_lw_writes_sum : seen (fun t => (t.readReg 2, t.readData 264))
    (exec (.lw 1 2 8) ((withRegs [(1, 0x100)]).writeData 264 0x5555)) = some (0x108, 0x5555) := by decide
/-- V21. -/
theorem test_lw_same_register : seen (fun t => t.readReg 1) (exec (.lw 1 1 0xFFFF) State.reset) =
    some 0xFFFFFFFF := by decide
/-- V22: the address is the rt field, the value the sum. -/
theorem test_sw_address_is_rt : seen (fun t => (t.readData 2, t.readData 0x108, t.readReg 2, t.wd))
    (exec (.sw 1 2 8) (withRegs [(1, 0x100), (2, 0xCAFE)])) = some (0x108, 0, 0xCAFE, [2]) := by decide
/-- V23: the highest address, and a write of the fill removes the entry. -/
theorem test_sw_address31 : seen (fun t => (t.dmem, t.wd))
    (exec (.sw 0 31 0) (State.reset.writeData 31 0x77)) = some ([], [31]) := by decide
/-- V25 and V26. -/
theorem test_beq_taken_and_not :
    seen (fun t => t.pc) (exec (.beq 1 2 4) (withRegs [(1, 3), (2, 3)])) = some 5 ∧
    seen (fun t => t.pc) (exec (.beq 1 2 4) (withRegs [(1, 3), (2, 4)])) = some 1 := by decide
/-- V28: the PC wraps. -/
theorem test_beq_wraps : seen (fun t => t.pc) (exec (.beq 0 0 0xFFFE) State.reset) =
    some 0xFFFFFFFF := by decide
/-- V31, from pc 0xFFFFFFFF (95_test_vectors.md 2.5: the PC wraps). -/
theorem test_inert_wraps : seen (fun t => t.pc)
    (exec (.inert ⟨63, 31, 31, 31, 31, 63⟩) { State.reset with pc := 0xFFFFFFFF }) = some 0 := by decide
/-- VP4: a hardwired register 0 keeps reading 0 and still enters WR. -/
theorem test_hardwired_zero : seen (fun t => (t.readReg 0, t.regWritten 0))
    (exec (.add 1 1 0 0) (withRegs [(1, 4)] (withParams { Params.default with r0Hardwired := true }))) =
    some (0, true) := by decide

/-! ### Fetch -/

/-- The word that withFetchWord places is the next one run. -/
theorem test_step_first_word : seen (fun t => (t.readReg 1, t.pc))
    (step (State.reset.withFetchWord 32 0x20010003)) = some (3, 1) := by decide
/-- VP5. -/
theorem test_step_unloaded_fault : faultOf (step { State.reset with
    params := { Params.default with unloadedFetch := .fault }, imem := [0], pc := 1 }) =
    some (.unloadedFetch 1) := by decide
/-- R162. -/
theorem test_step_unloaded_zero : seen (fun t => t.pc)
    (step { State.reset with imem := [0x20010003], pc := 1 }) = some 2 := by decide

/-! ### Setup and inspection -/

def launch (program : List String) (regInit dataInit : List (Nat × Nat)) : Launch :=
  { params := Params.default, program := program.map String.toList, regInit := regInit,
    dataInit := dataInit }

theorem test_parse_word : parseWordText "014a5820".toList = .ok 0x014A5820 := by decide
theorem test_parse_rejects :
    parseWordText [] = .error .noDigits ∧ parseWordText "0x1".toList = .error .notHexDigit ∧
    parseWordText "001095020".toList = .error .tooManyDigits := by decide
/-- The launch of 95_test_vectors.md L1-1. -/
theorem test_setup : seen (fun s => (s.pc, s.imem, s.readReg 8, s.readReg 9, inspect s))
    (setup (launch ["01095020", "014A5820", "016B0020"] [(8, 5), (9, 10)] [(7, 0xDEAD)])) =
    some (0, [0x01095020, 0x014A5820, 0x016B0020], 5, 10, ⟨[(8, 5), (9, 10)], [(7, 0xDEAD)]⟩) := by
  decide
theorem test_setup_refuses_empty : refusalOf (setup (launch [] [] [])) = some .noInstructions := by
  decide
theorem test_setup_refuses_text :
    refusalOf (setup (launch ["00000000", "xyz"] [] [])) = some (.unparsableWord 1 .notHexDigit) := by
  decide
theorem test_setup_refuses_ranges :
    refusalOf (setup (launch ["0"] [(32, 0)] [])) = some (.registerIndexOutOfRange 32) ∧
    refusalOf (setup (launch ["0"] [] [(2 ^ 32, 0)])) = some (.dataAddressOutOfRange (2 ^ 32)) ∧
    refusalOf (setup (launch ["0"] [(0, 2 ^ 32)] [])) = some (.valueOutOfRange (2 ^ 32)) := by decide

/-! ### Assembler (words of 95_test_vectors.md section 3) -/

theorem test_assemble_text : (parseLine "sw r7, 8(r5)".toList).map (assemble [] 1) =
    some (.ok 0xACA70008) := by decide
theorem test_assemble_negative : (parseLine "addi $1, $1, -1".toList).map (assemble [] 2) =
    some (.ok 0x2021FFFF) := by decide
theorem test_assemble_label :
    (parseLine "beq r0, r0, loop".toList).map (assemble [("loop".toList, 1)] 4) =
    some (.ok 0x1000FFFC) := by decide
theorem test_assemble_range : assemble [] 0 (.addi 1 1 65536) = .error (.immediateOutOfRange 65536) := by
  decide
theorem test_disassemble_text : (disassemble 0x01095020).text = "add r10, r8, r9".toList := by decide
/-- A non-zero shamt prints as .word (R69). -/
theorem test_disassemble_word : (disassemble 0x00C72FE0).text = ".word 0x00C72FE0".toList := by decide

/-! ### Witnesses: for each statement with hypotheses, a state and operands that meet them -/

/-- A word of data memory written, a register written, not at index 0. -/
def busyState : State :=
  { State.reset with pc := 5, dmem := [(3, 7)], wd := [3], imem := [0, 0, 0, 0, 0, 0x20010003] }

theorem busyState_inv : busyState.Inv where
  memory_wf := by decide
  data_in_range := by
    intro a h
    by_cases ha : 3 = a
    · subst ha
      decide
    · simp [busyState, Memory.lookup, ha] at h
  wd_rising := by decide
  wd_in_range := by decide
  unwritten_reg := by decide
  unwritten_data := by
    intro a h
    have ha : ¬3 = a := by
      rintro rfl
      exact h (by decide)
    simp [State.readData, Memory.read, busyState, Memory.lookup, ha]

theorem witness_DecodeOfEncode :
    (Instr.inert ⟨0x02, 0, 0, 0, 0, 5⟩).WellFormed ∧ (Instr.add 31 0 31 31).WellFormed := by decide
/-- One word for each clause, at the ends of the fields. -/
theorem witness_OpcodeMapSelectsInstr :
    (field 0x03FFFFE0 26 6 = 0x00 ∧ field 0x03FFFFE0 0 6 = 0x20) ∧
    (field 0x00000024 26 6 = 0x00 ∧ field 0x00000024 0 6 = 0x24) ∧
    (field 0x0000002A 26 6 = 0x00 ∧ field 0x0000002A 0 6 = 0x2A) ∧
    field 0x23FFFFFF 26 6 = 0x08 ∧ field 0x3C000000 26 6 = 0x0F ∧ field 0x8FFFFFFF 26 6 = 0x23 ∧
    field 0xAC000000 26 6 = 0x2B ∧ field 0x13FFFFFF 26 6 = 0x04 ∧
    (field 0x0000003F 26 6 = 0x00 ∧ field 0x0000003F 0 6 ∉ [0x20, 0x24, 0x2A]) ∧
    field 0xFFFFFFFF 26 6 ∉ [0x00, 0x04, 0x08, 0x0F, 0x23, 0x2B] := by decide
theorem witness_TableStaysInDefinedValues :
    (controlUnit Params.default 0x04 0x3F).branchEnable = true := by decide
theorem witness_InertOnlyAdvancesPc : ∃ f, decode 0x00000000 = .inert f := ⟨_, rfl⟩
theorem witness_MipsWordsAreInert :
    (field 0x0000000C 26 6 = 0x00 ∧
      field 0x0000000C 0 6 ∈ [0x00, 0x02, 0x08, 0x0C, 0x0D, 0x21, 0x22, 0x25, 0x2B]) ∧
    field 0x08000005 26 6 ∈ [0x02, 0x03, 0x05, 0x09, 0x0C, 0x0D, 0x0A, 0x10, 0x20, 0x28] := by decide
theorem witness_IgnoredFieldsHaveNoEffect :
    (withParams { Params.default with addiAluSrc := .src0 }).params.addiAluSrc = .src0 := rfl
theorem witness_StepRunsTheDecodedInstr : busyState.imem[busyState.pc.toNat]? = some 0x20010003 := by
  decide
/-- The first index past the program, under each value of UNLOADED_FETCH. -/
theorem witness_StepPastTheProgram :
    (({ busyState with pc := 6 } : State).imemSize ≤ ({ busyState with pc := 6 } : State).pc.toNat ∧
      busyState.params.unloadedFetch = .zero) ∧
    ((withParams { Params.default with unloadedFetch := .fault }).imemSize ≤
        (withParams { Params.default with unloadedFetch := .fault }).pc.toNat ∧
      (withParams { Params.default with unloadedFetch := .fault }).params.unloadedFetch = .fault) := by
  decide
theorem witness_RunNeverStopsUnderZeroFetch : busyState.params.unloadedFetch = .zero := rfl
/-- The premises shared by PcMovesByOneOrByBranch, OnlyTheDestinationRegisterChanges,
OnlyTheSwAddressChanges and StepMakesAtMostOneWrite, for a register write ... -/
theorem witness_step_of_fetched_word :
    ∃ w t, busyState.fetch = .ok w ∧ step busyState = .next t ∧ regDestination (decode w) = some 1 ∧
      regDestination (decode w) ≠ some 2 ∧ dataDestination (decode w) = none := by
  refine ⟨0x20010003, _, rfl, rfl, ?_⟩
  decide
/-- ... for a data-memory write ... -/
theorem witness_step_of_fetched_sw :
    ∃ w t, (State.reset.withFetchWord 32 0xACA70008).fetch = .ok w ∧
      step (State.reset.withFetchWord 32 0xACA70008) = .next t ∧
      regDestination (decode w) = none ∧ dataDestination (decode w) = some 7 ∧
      dataDestination (decode w) ≠ some 31 := by
  refine ⟨0xACA70008, _, rfl, rfl, ?_⟩
  decide
/-- ... and for a taken branch. -/
theorem witness_step_of_fetched_beq :
    ∃ w t, (State.reset.withFetchWord 32 0x10000003).fetch = .ok w ∧
      step (State.reset.withFetchWord 32 0x10000003) = .next t ∧ decode w = .beq 0 0 3 ∧
      regDestination (decode w) = none ∧ dataDestination (decode w) = none ∧
      State.reset.readReg 0 = State.reset.readReg 0 ∧ t.pc = 4 := by
  refine ⟨0x10000003, _, rfl, rfl, ?_⟩
  decide
theorem witness_NoInstrWritesTheProgram : ∃ t, exec (.sw 0 31 1) busyState = .next t := ⟨_, rfl⟩
theorem witness_RunKeepsProgramAndHighData :
    (∃ t, runCycles 1 busyState = .next t) ∧ (32 : Nat) ≤ 32 := ⟨⟨_, rfl⟩, by decide⟩
theorem witness_HardwiredZeroStays :
    (withParams { Params.default with r0Hardwired := true }).params.r0Hardwired = true ∧
    ∃ t, runCycles 1 (withParams { Params.default with r0Hardwired := true }) = .next t :=
  ⟨rfl, _, rfl⟩
theorem witness_SelfLoopWordStaysPut :
    (State.reset.withFetchWord 32 0x1000FFFF).imem[
      (State.reset.withFetchWord 32 0x1000FFFF).pc.toNat]? = some 0x1000FFFF := by decide
theorem witness_StepKeepsTheInvariant : busyState.Inv ∧ ∃ t, step busyState = .next t :=
  ⟨busyState_inv, _, rfl⟩
theorem witness_CanonicalMemoriesAreEqual :
    Memory.wf (fun _ => 0) [(3, 7), (0xFFFFFFFF, 1)] = true ∧
    ∀ a, Memory.read (fun _ => 0) [(3, 7), (0xFFFFFFFF, 1)] a =
      Memory.read (fun _ => 0) [(3, 7), (0xFFFFFFFF, 1)] a := ⟨by decide, fun _ => rfl⟩
/-- Each way a launch is bad, at the edge of its range, and one that is not bad. -/
theorem witness_SetupRefusesExactlyBadLaunches :
    (launch [] [] []).program = [] ∧
    (∃ why, parseWordText "000000000".toList = .error why) ∧
    (∃ e ∈ (launch ["0"] [(32, 0)] []).regInit, 32 ≤ e.1 ∨ 2 ^ 32 ≤ e.2) ∧
    (∃ e ∈ (launch ["0"] [] [(0, 2 ^ 32)]).dataInit,
      2 ^ Params.default.dmemAddrWidth.val ≤ e.1 ∨ 2 ^ 32 ≤ e.2) ∧
    ∃ s, setup (launch ["FFFFFFFF"] [(31, 2 ^ 32 - 1)] [(2 ^ 32 - 1, 2 ^ 32 - 1)]) = .next s :=
  ⟨rfl, ⟨_, rfl⟩, ⟨_, .head _, by decide⟩, ⟨_, .head _, by decide⟩, _, rfl⟩
theorem witness_SetupGivesTheResetValues :
    (∃ s, setup (launch ["01095020"] [(8, 5), (0, 1)] [(7, 0xDEAD)]) = .next s) ∧
    ((launch ["01095020"] [(8, 5), (0, 1)] [(7, 0xDEAD)]).regInit.map Prod.fst).Nodup ∧
    ((launch ["01095020"] [(8, 5), (0, 1)] [(7, 0xDEAD)]).dataInit.map Prod.fst).Nodup ∧
    (8, 5) ∈ (launch ["01095020"] [(8, 5), (0, 1)] [(7, 0xDEAD)]).regInit :=
  ⟨⟨_, rfl⟩, by decide, by decide, by decide⟩
theorem witness_ResetIsTheDefaultSetup : ([0x1000FFFF] : List Word) ≠ [] := by decide
/-- A launch's state after its setup: register 8 injected, one inert word loaded. -/
def injectedState : State := withRegs [(8, 5)] { State.reset with imem := [0] }

/-- `injectedState` after one step. -/
def reachedState : State := { injectedState with pc := 1 }

/-- The premises of ReachableStatesSatisfyTheInvariant and UnlistedLocationsHoldTheirFill, with a
register and an address that the snapshot does not list. -/
theorem witness_reachable_state :
    setup (launch ["0"] [(8, 5)] []) = .next injectedState ∧ Reaches injectedState reachedState ∧
    (∀ v, (9, v) ∉ (inspect reachedState).regs) ∧ ∀ v, (104, v) ∉ (inspect reachedState).data := by
  have hr : (inspect reachedState).regs = [(8, 5)] := by decide
  have hd : (inspect reachedState).data = [] := by decide
  exact ⟨rfl, ⟨1, rfl⟩, by intro v; rw [hr]; simp, by intro v; rw [hd]; simp⟩
/-- A forward label at the end of the offset's range, and a backward one. -/
theorem witness_LabelBranchReachesItsLabel :
    labelIndex "far".toList [("far".toList, 32768)] = some 32768 ∧
    assemble [("far".toList, 32768)] State.reset.pc.toNat (.beqLabel 0 0 "far".toList) =
      .ok 0x10007FFF ∧
    assemble [("here".toList, 5)] busyState.pc.toNat (.beqLabel 2 3 "here".toList) = .ok 0x1043FFFF ∧
    busyState.readReg 2 = busyState.readReg 3 := by decide

end Sys2Proof.Tests
end

section
/-! SUPPORT. A step as one cycle of the datapath, and what a cycle leaves in each component. -/

namespace Sys2Proof.Machine

open Sys2Proof.Spec

/-! ### The instruction of a word is one cycle of the datapath under the word's own row -/

/-- Selecting a row drops no field: an instruction's fields are those it was selected by. -/
theorem fields_selectInstr (f : Fields) : (selectInstr f).fields = f := by
  have himm : ∀ op, f.opcode = op → Fields.ofImm op f.rs f.rt f.immediate16 = f := by
    rintro _ rfl
    exact ofImm_immediate16 f
  have hreg : ∀ fn, f.opcode = 0x00 → f.functionCode = fn →
      (⟨0x00, f.rs, f.rt, f.rd, f.shiftAmount, fn⟩ : Fields) = f := by
    rintro _ hop rfl
    rw [← hop]
  unfold selectInstr
  split_ifs with hop hadd hand hslt haddi hlui hlw hsw hbeq
  · exact hreg _ hop hadd
  · exact hreg _ hop hand
  · exact hreg _ hop hslt
  · rfl
  · exact himm _ haddi
  · exact himm _ hlui
  · exact himm _ hlw
  · exact himm _ hsw
  · exact himm _ hbeq
  · rfl

/-- The instruction selected runs under the ControlUnit's row. -/
theorem rowOf_selectInstr (p : Params) (f : Fields) :
    rowOf p (selectInstr f) = controlUnit p f.opcode f.functionCode := by
  unfold selectInstr controlUnit
  split_ifs <;> rfl

/-- Every instruction is one cycle of the datapath under its own row. -/
theorem exec_eq_cycle (i : Instr) (s : State) :
    exec i s = .next (cycle (rowOf s.params i) i.fields s) := by
  cases i <;> rfl

theorem exec_decode_eq_cycle (w : Word) (s : State) :
    exec (decode w) s =
      .next (cycle (controlUnit s.params (decodeFields w).opcode (decodeFields w).functionCode)
        (decodeFields w) s) := by
  rw [exec_eq_cycle, decode, rowOf_selectInstr, fields_selectInstr]

/-! ### What a cycle leaves in each component of the state -/

/-- The ALU's result in a cycle. -/
def cycleResult (c : ControlSignals) (f : Fields) (s : State) : Word :=
  aluResult c.aluOp (operandA f s) (operandB c f s) f.shiftAmount

section
variable (c : ControlSignals) (f : Fields) (s : State)

/-- A cycle is the WritebackUnit's two gates, and the new PC. -/
theorem cycle_eq_writeback :
    cycle c f s =
      { writeback c (destinationRegister c f) (cycleResult c f s) s with
        pc := nextPc s.pc c.branchEnable (aluZeroFlag c.aluOp (operandA f s) (operandB c f s))
          (branchOffset f) } := rfl

@[simp] theorem cycle_pc :
    (cycle c f s).pc = nextPc s.pc c.branchEnable
      (aluZeroFlag c.aluOp (operandA f s) (operandB c f s)) (branchOffset f) := rfl

@[simp] theorem cycle_imem : (cycle c f s).imem = s.imem := by
  unfold cycle writeback
  cases c.regWrite <;> cases c.memWrite <;> rfl

@[simp] theorem cycle_params : (cycle c f s).params = s.params := by
  unfold cycle writeback
  cases c.regWrite <;> cases c.memWrite <;> rfl

theorem cycle_wd :
    (cycle c f s).wd =
      if c.memWrite = true then insertKey (destinationRegister c f).toNat s.wd else s.wd := by
  unfold cycle writeback
  cases c.regWrite <;> cases c.memWrite <;> rfl

theorem mem_wd_cycle (a : Nat) :
    a ∈ (cycle c f s).wd ↔ (c.memWrite = true ∧ a = (destinationRegister c f).toNat) ∨ a ∈ s.wd := by
  rw [cycle_wd]
  split
  · rename_i hm
    simp [mem_insertKey, hm]
  · rename_i hm
    simp [hm]

theorem readData_cycle (a : Nat) :
    (cycle c f s).readData a =
      if c.memWrite = true ∧ a = (destinationRegister c f).toNat then cycleResult c f s
      else s.readData a := by
  rw [cycle_eq_writeback, readData_setPc]
  unfold writeback
  cases c.regWrite <;> cases c.memWrite <;> simp [readData_writeData]

/-- The stored register file after a cycle; a hardwired register 0 keeps what it holds (R110). -/
theorem regs_cycle (r : RegIdx) :
    (cycle c f s).regs[r.toNat]'(r.isLt) =
      if c.regWrite = true ∧ r = destinationRegister c f ∧
          hardwiredZero s.params (destinationRegister c f) = false then cycleResult c f s
      else s.regs[r.toNat]'(r.isLt) := by
  simp only [cycle_eq_writeback, writeback]
  by_cases hr : c.regWrite = true <;> by_cases hm : c.memWrite = true <;>
    simp [hr, hm, regs_writeReg]

theorem readReg_cycle (r : RegIdx) :
    (cycle c f s).readReg r =
      if c.regWrite = true ∧ r = destinationRegister c f ∧
          hardwiredZero s.params (destinationRegister c f) = false then cycleResult c f s
      else s.readReg r := by
  rw [cycle_eq_writeback, readReg_setPc]
  unfold writeback
  cases c.regWrite <;> cases c.memWrite <;> simp [readReg_writeReg]

theorem regWritten_cycle (r : RegIdx) :
    (cycle c f s).regWritten r =
      ((c.regWrite && decide (r = destinationRegister c f)) || s.regWritten r) := by
  rw [cycle_eq_writeback, regWritten_setPc]
  unfold writeback
  cases c.regWrite <;> cases c.memWrite <;> simp [regWritten_writeReg]

end

end Sys2Proof.Machine
end

section
/-! PROOFS. The step refines the spec's cycle rule (40_datapath.md R112). -/

namespace Sys2Proof.Machine

open Sys2Proof.Spec

/-! ### The blocks of the cycle as R112 computes them on numbers -/

/-- A bundle of the ControlUnit as a row of numbers (40_datapath.md R85). -/
def ControlSignals.toRow (c : ControlSignals) : Row :=
  ⟨c.aluOp.toNat, c.memToReg.toNat, c.memWrite.toNat, c.aluSrc.toNat, c.regWrite.toNat,
    c.branchEnable.toNat, c.regDstSelectsRd.toNat⟩

theorem addiAluSrcCode_toNat (a : AddiAluSrc) : (addiAluSrcCode a).toNat = addiAluSrcNumber a := by
  cases a <;> rfl

/-- Codes that select no row give the all-zero row (R86). -/
theorem controlTable_inert (a : Nat) (op fn : Code6) (hop : op ∉ [0x08, 0x0F, 0x23, 0x2B, 0x04])
    (hfn : op = 0x00 → fn ∉ [0x20, 0x24, 0x2A]) :
    controlTable a op.toNat fn.toNat = ⟨0, 0, 0, 0, 0, 0, 0⟩ := by
  simp [← BitVec.toNat_inj] at hop hfn
  unfold controlTable
  split <;> simp_all

/-- The ControlUnit is the table of R85 and R86. -/
theorem controlTable_eq_toRow (p : Params) (op fn : Code6) :
    controlTable (addiAluSrcNumber p.addiAluSrc) op.toNat fn.toNat = (controlUnit p op fn).toRow := by
  unfold controlUnit
  split_ifs with hop hadd hand hslt haddi hlui hlw hsw hbeq
  · rw [hop, hadd]
    rfl
  · rw [hop, hand]
    rfl
  · rw [hop, hslt]
    rfl
  · exact controlTable_inert _ _ _ (by simp [hop]) fun _ => by simpa using ⟨hadd, hand, hslt⟩
  · rw [haddi, ← addiAluSrcCode_toNat]
    rfl
  · rw [hlui]
    rfl
  · rw [hlw]
    rfl
  · rw [hsw]
    rfl
  · rw [hbeq]
    rfl
  · exact controlTable_inert _ _ _ (by simpa using ⟨haddi, hlui, hlw, hsw, hbeq⟩)
      fun h => absurd h hop

theorem aluSrc_cases : ∀ x : BitVec 2, x = 0 ∨ x = 1 ∨ x = 2 ∨ x = 3 := by decide

theorem aluOp_cases : ∀ op : BitVec 3,
    op = 0 ∨ op = 1 ∨ op = 2 ∨ op = 3 ∨ op = 4 ∨ op = 5 ∨ op = 6 ∨ op = 7 := by decide

/-- The ALU on words is the ALU on numbers (R95 to R102). -/
theorem aluNumber_toNat (op : BitVec 3) (a b : Word) (sh : Shamt) :
    aluNumber op.toNat a.toNat b.toNat sh.toNat =
      ((aluResult op a b sh).toNat, aluZeroFlag op a b) := by
  obtain rfl | rfl | rfl | rfl | rfl | rfl | rfl | rfl := aluOp_cases op
  · exact Prod.ext (BitVec.toNat_add a b).symm rfl
  · exact Prod.ext (BitVec.toNat_and a b).symm rfl
  · exact Prod.ext (BitVec.toNat_or a b).symm rfl
  · refine Prod.ext ?_ ?_
    · change (a.toNat + (2 ^ 32 - b.toNat)) % 2 ^ 32 = (a - b).toNat
      rw [BitVec.toNat_sub, Nat.add_comm]
    · change decide (a.toNat = b.toNat) = (decide (a - b = 0))
      simp only [BitVec.toNat_inj, sub_eq_zero]
  · refine Prod.ext ?_ rfl
    change (if b.toNat < a.toNat then 1 else 0) =
      (if b.toNat < a.toNat then (1 : Word) else 0).toNat
    split <;> rfl
  · refine Prod.ext ?_ rfl
    change b.toNat * 2 ^ sh.toNat % 2 ^ 32 = (b <<< sh.toNat).toNat
    rw [BitVec.toNat_shiftLeft, Nat.shiftLeft_eq]
  · rfl
  · rfl

/-- A register index as the record's (10_state.md R33). -/
def regIndex (r : RegIdx) : Fin 32 := ⟨r.toNat, r.isLt⟩

@[simp] theorem regIndex_val (r : RegIdx) : (regIndex r).val = r.toNat := rfl

@[simp] theorem regIndex_inj {q r : RegIdx} : regIndex q = regIndex r ↔ q = r :=
  ⟨fun h => BitVec.eq_of_toNat_eq (congrArg Fin.val h), congrArg regIndex⟩

@[simp] theorem regIndex_eq_zero {r : RegIdx} : regIndex r = 0 ↔ r = 0 :=
  regIndex_inj (r := 0)

theorem regIndex_surjective (i : Fin 32) : ∃ r, i = regIndex r := ⟨BitVec.ofFin i, rfl⟩

/-! The decoder's fields as R112 takes them from the word's number (R61, R82). -/

theorem decodeFields_opcode_toNat (w : Word) : (decodeFields w).opcode.toNat = w.toNat / 2 ^ 26 := by
  simp [decodeFields, Nat.shiftRight_eq_div_pow]
  omega

theorem decodeFields_functionCode_toNat (w : Word) :
    (decodeFields w).functionCode.toNat = w.toNat % 2 ^ 6 := by
  simp [decodeFields]

theorem decodeFields_shiftAmount_toNat (w : Word) :
    (decodeFields w).shiftAmount.toNat = w.toNat / 2 ^ 6 % 2 ^ 5 := by
  simp [decodeFields, Nat.shiftRight_eq_div_pow]

theorem regIndex_decodeFields_rs (w : Word) :
    regIndex (decodeFields w).rs = Fin.ofNat 32 (w.toNat / 2 ^ 21) := by
  ext
  simp [regIndex, decodeFields, Nat.shiftRight_eq_div_pow]

theorem regIndex_decodeFields_rt (w : Word) :
    regIndex (decodeFields w).rt = Fin.ofNat 32 (w.toNat / 2 ^ 16) := by
  ext
  simp [regIndex, decodeFields, Nat.shiftRight_eq_div_pow]

theorem regIndex_decodeFields_rd (w : Word) :
    regIndex (decodeFields w).rd = Fin.ofNat 32 (w.toNat / 2 ^ 11) := by
  ext
  simp [regIndex, decodeFields, Nat.shiftRight_eq_div_pow]

theorem decodeFields_immediate16_eq_ofNat (w : Word) :
    (decodeFields w).immediate16 = BitVec.ofNat 16 w.toNat := by
  ext i h
  simp [Fields.immediate16, decodeFields]
  grind

theorem sext32_eq_signExtended (imm : Imm16) : sext32 imm = signExtended imm := rfl

theorem zext32_eq_zeroExtended (imm : Imm16) : zext32 imm = zeroExtended imm := by
  apply BitVec.eq_of_toNat_eq
  simp [zext32, zeroExtended]

/-! ### R112's step with its parts named -/

/-- The register read of R23 and R110 in the record of R33. -/
def specRead {n : Nat} (p : Params) (S : SpecState n) (i : Fin 32) : Word :=
  if p.r0Hardwired = true ∧ i = 0 then 0 else S.R i

/-- Operand B of R112, `base` being the read at `dst` (R92). -/
def specOperandB (c : Row) (imm : Imm16) (base : Word) : Word :=
  match c.aluSrc with
  | 1 => if c.branchEnable = 0 then signExtended imm else base
  | 2 => zeroExtended imm
  | _ => base

/-- The record after R112's writes, from the ALU's result and zero flag. -/
def specRetire {n : Nat} (p : Params) (c : Row) (dst : Fin 32) (off : Word) (alu : Nat × Bool)
    (S : SpecState n) : SpecState n :=
  { pc := if c.branchEnable = 1 ∧ alu.2 = true then S.pc + off + 1 else S.pc + 1
    R := fun i =>
      if c.regWrite = 1 ∧ i = dst ∧ ¬(p.r0Hardwired = true ∧ dst = 0) then BitVec.ofNat 32 alu.1
      else S.R i
    WR := fun i => (c.regWrite = 1 ∧ i = dst) ∨ i ∈ S.WR
    D := fun a => if c.memWrite = 1 ∧ a.toNat = dst.val then BitVec.ofNat 32 alu.1 else S.D a
    WD := fun a => (c.memWrite = 1 ∧ a.toNat = dst.val) ∨ a ∈ S.WD }

/-- R112's destination. -/
def specDst (c : Row) (rt rd : Fin 32) : Fin 32 := if c.regDstSelectsRd = 1 then rd else rt

/-- R112's body, once its row and its fields are known under other names. -/
theorem specCycle_eq {n : Nat} {p : Params} {w : Word} {S : SpecState n} {c : Row}
    {rs rt rd : Fin 32} {imm : Imm16} {sh : Nat}
    (hc : controlTable (addiAluSrcNumber p.addiAluSrc) (w.toNat / 2 ^ 26) (w.toNat % 2 ^ 6) = c)
    (hrs : Fin.ofNat 32 (w.toNat / 2 ^ 21) = rs) (hrt : Fin.ofNat 32 (w.toNat / 2 ^ 16) = rt)
    (hrd : Fin.ofNat 32 (w.toNat / 2 ^ 11) = rd) (himm : BitVec.ofNat 16 w.toNat = imm)
    (hsh : w.toNat / 2 ^ 6 % 2 ^ 5 = sh) :
    specCycle p w S =
      specRetire p c (specDst c rt rd) (signExtended imm)
        (aluNumber c.aluOp (specRead p S rs).toNat
          (specOperandB c imm (specRead p S (specDst c rt rd))).toNat sh) S := by
  subst hc hrs hrt hrd himm hsh
  rfl

/-! Each part is the model's block at the row and the fields of the word. -/

theorem specDst_toRow (c : ControlSignals) (f : Fields) :
    specDst c.toRow (regIndex f.rt) (regIndex f.rd) = regIndex (destinationRegister c f) := by
  unfold specDst destinationRegister
  cases h : c.regDstSelectsRd <;> simp [ControlSignals.toRow, h]

theorem specRead_regIndex (s : State) (n : Nat) (r : RegIdx) :
    specRead s.params (view n s) (regIndex r) = s.readReg r := by
  simp [specRead, State.readReg, hardwiredZero]
  rfl

theorem specOperandB_toRow (c : ControlSignals) (f : Fields) (s : State) :
    specOperandB c.toRow f.immediate16 (operandBBase c f s) = operandB c f s := by
  unfold specOperandB operandB
  obtain h | h | h | h := aluSrc_cases c.aluSrc
  · simp [ControlSignals.toRow, h]
  · cases hb : c.branchEnable <;> simp [ControlSignals.toRow, h, hb, sext32_eq_signExtended]
  · simp [ControlSignals.toRow, h, zext32_eq_zeroExtended]
  · simp [ControlSignals.toRow, h]

theorem SpecState_ext {n : Nat} {S T : SpecState n} (hpc : S.pc = T.pc) (hR : ∀ i, S.R i = T.R i)
    (hD : ∀ a, S.D a = T.D a) (hWR : ∀ i, i ∈ S.WR ↔ i ∈ T.WR) (hWD : ∀ a, a ∈ S.WD ↔ a ∈ T.WD) :
    S = T := by
  obtain ⟨pc, R, D, WR, WD⟩ := S
  obtain ⟨pc', R', D', WR', WD'⟩ := T
  cases hpc
  cases funext hR
  cases funext hD
  cases Set.ext hWR
  cases Set.ext hWD
  rfl

/-- The record after a cycle is R112's record after its writes. -/
theorem view_cycle (n : Nat) (c : ControlSignals) (f : Fields) (s : State) :
    view n (cycle c f s) =
      specRetire s.params c.toRow (regIndex (destinationRegister c f)) (branchOffset f)
        ((cycleResult c f s).toNat, aluZeroFlag c.aluOp (operandA f s) (operandB c f s))
        (view n s) := by
  refine SpecState_ext ?_ ?_ ?_ ?_ ?_
  · simp [view, specRetire, nextPc, ControlSignals.toRow]
  · intro i
    obtain ⟨r, rfl⟩ := regIndex_surjective i
    refine (regs_cycle c f s r).trans ?_
    simp [specRetire, ControlSignals.toRow, hardwiredZero, view]
  · intro a
    simp [view, specRetire, readData_cycle, ControlSignals.toRow]
  · intro i
    obtain ⟨r, rfl⟩ := regIndex_surjective i
    change (cycle c f s).regWritten r = true ↔
      (c.regWrite.toNat = 1 ∧ regIndex r = regIndex (destinationRegister c f)) ∨ s.regWritten r = true
    simp [regWritten_cycle]
  · intro a
    change a.toNat ∈ (cycle c f s).wd ↔
      (c.memWrite.toNat = 1 ∧ a.toNat = (destinationRegister c f).toNat) ∨ a.toNat ∈ s.wd
    simp [mem_wd_cycle]

/-- One cycle of a word under its row is R112's cycle of that word. -/
theorem view_cycle_eq_specCycle (n : Nat) (w : Word) (s : State) :
    view n (cycle (controlUnit s.params (decodeFields w).opcode (decodeFields w).functionCode)
        (decodeFields w) s) = specCycle s.params w (view n s) := by
  have hrow := controlTable_eq_toRow s.params (decodeFields w).opcode (decodeFields w).functionCode
  rw [decodeFields_opcode_toNat, decodeFields_functionCode_toNat] at hrow
  rw [view_cycle, specCycle_eq hrow (regIndex_decodeFields_rs w).symm
    (regIndex_decodeFields_rt w).symm (regIndex_decodeFields_rd w).symm
    (decodeFields_immediate16_eq_ofNat w).symm (decodeFields_shiftAmount_toNat w).symm,
    specDst_toRow, specRead_regIndex, specRead_regIndex, ← sext32_eq_signExtended]
  change _ = specRetire _ _ _ _ (aluNumber _ _ (specOperandB _ _ (operandBBase _ _ s)).toNat _) _
  rw [specOperandB_toRow]
  exact congrArg (specRetire _ _ _ _ · _) (aluNumber_toNat _ _ _ _).symm

/-- `IMemRead` of the record is the model's fetch, a fault standing for none. -/
theorem specFetch_eq_fetch (s : State) :
    specFetch s.params (fun a => s.imem[a.toNat]?) s.pc = s.fetch.toOption := by
  unfold specFetch State.fetch
  dsimp only
  cases s.imem[s.pc.toNat]? with
  | some w => rfl
  | none => cases s.params.unloadedFetch <;> rfl

/-- The one fault of a fetch records the pc (R184). -/
theorem fetch_error {s : State} {r : Fault} (h : s.fetch = .error r) : r = .unloadedFetch s.pc := by
  rcases fetch_cases s with ⟨w, -, hf⟩ | ⟨-, -, hf⟩ | ⟨-, -, hf⟩
  · cases hf.symm.trans h
  · cases hf.symm.trans h
  · cases hf.symm.trans h
    rfl

/-- A step stops only where its fetch faults. -/
theorem step_of_fetch_error {s : State} {r : Fault} (h : s.fetch = .error r) : step s = .fault r := by
  simp only [step, h]

/-- Settles O30: `exec` of a decoded word is one cycle under the ControlUnit's row, and that cycle is
R112's, component by component. -/
theorem stepRefinesTheCycleRule : Obligations.StepRefinesTheCycleRule := by
  unfold Obligations.StepRefinesTheCycleRule
  intro s
  rw [specFetch_eq_fetch]
  cases hf : s.fetch with
  | ok w =>
    exact ⟨_, (step_of_fetch hf).trans (exec_decode_eq_cycle w s), cycle_imem _ _ _,
      cycle_params _ _ _, view_cycle_eq_specCycle _ w s⟩
  | error r => exact fetch_error hf ▸ step_of_fetch_error hf

end Sys2Proof.Machine
end

section
/-! PROOFS. The write of one step, the fetch, and what runs keep. -/

namespace Sys2Proof.Machine

open Sys2Proof.Spec

/-! ### The write an instruction makes -/

/-- The register an instruction names is the one its row writes. -/
theorem regDestination_eq (p : Params) (i : Instr) :
    regDestination i =
      if (rowOf p i).regWrite = true then some (destinationRegister (rowOf p i) i.fields)
      else none := by
  cases i <;> rfl

/-- The word of data memory an instruction names is the one its row writes. -/
theorem dataDestination_eq (p : Params) (i : Instr) :
    dataDestination i =
      if (rowOf p i).memWrite = true then some (destinationRegister (rowOf p i) i.fields).toNat
      else none := by
  cases i <;> rfl

/-- No row sets both write enables (R111). -/
theorem rowOf_one_write (p : Params) (i : Instr) :
    ((rowOf p i).regWrite && (rowOf p i).memWrite) = false := by
  cases i <;> rfl

/-- A step that fetches `w` is the cycle of `w`'s instruction under its row. -/
theorem step_next_eq_cycle {s t : State} {w : Word} (hf : s.fetch = .ok w) (h : step s = .next t) :
    t = cycle (rowOf s.params (decode w)) (decode w).fields s := by
  rw [step_of_fetch hf, exec_eq_cycle] at h
  cases h
  rfl

/-- Settles O26: a cycle writes a register only under its row's enable, at its destination, which is the
register that the instruction names. -/
theorem onlyTheDestinationRegisterChanges : Obligations.OnlyTheDestinationRegisterChanges := by
  unfold Obligations.OnlyTheDestinationRegisterChanges
  intro s t w hf h r
  rw [regDestination_eq s.params, step_next_eq_cycle hf h]
  constructor
  · intro hne
    rw [readReg_cycle, if_neg]
    rintro ⟨hw, rfl, -⟩
    exact hne (if_pos hw)
  · simp [regWritten_cycle, or_comm, eq_comm (a := r)]

/-- Settles O27: the same for the data-memory gate; only sw's row enables it. -/
theorem onlyTheSwAddressChanges : Obligations.OnlyTheSwAddressChanges := by
  unfold Obligations.OnlyTheSwAddressChanges
  intro s t w hf h a
  rw [dataDestination_eq s.params, step_next_eq_cycle hf h]
  constructor
  · intro hne
    rw [readData_cycle, if_neg]
    rintro ⟨hw, rfl⟩
    exact hne (if_pos hw)
  · simp [mem_wd_cycle, or_comm, eq_comm (a := a)]

/-- Settles O28, by the row's two enables, of which at most one is set. -/
theorem stepMakesAtMostOneWrite : Obligations.StepMakesAtMostOneWrite := by
  unfold Obligations.StepMakesAtMostOneWrite
  intro s t w hf h
  rw [regDestination_eq s.params, dataDestination_eq s.params, step_next_eq_cycle hf h]
  by_cases hr : (rowOf s.params (decode w)).regWrite = true
  · have hm : (rowOf s.params (decode w)).memWrite = false := by
      simpa [hr] using rowOf_one_write s.params (decode w)
    simp only [hr, hm, if_true]
    refine ⟨fun r hne => ⟨?_, ?_⟩, ?_, fun a => ?_, ?_⟩
    · simp [readReg_cycle, hne]
    · simp [regWritten_cycle, hne]
    · simp [regWritten_cycle, hr]
    · simp [readData_cycle, hm]
    · simp [cycle_wd, hm]
  · by_cases hm : (rowOf s.params (decode w)).memWrite = true
    · simp only [hr, hm, if_true]
      refine ⟨BitVec.isLt _, fun a hne => ⟨?_, ?_⟩, ?_, fun r => ⟨?_, ?_⟩⟩
      · simp [readData_cycle, hne]
      · simp [mem_wd_cycle, hne]
      · simp [mem_wd_cycle, hm]
      · simp [readReg_cycle, hr]
      · simp [regWritten_cycle, hr]
    · simp only [hr, hm]
      refine ⟨fun r => ⟨?_, ?_⟩, fun a => ?_, ?_⟩
      · simp [readReg_cycle, hr]
      · simp [regWritten_cycle, hr]
      · simp [readData_cycle, hm]
      · simp [cycle_wd, hm]

/-! ### The fetch -/

/-- Settles O21: both states fetch the word, one by its program, one by the word placed. -/
theorem stepRunsTheDecodedInstr : Obligations.StepRunsTheDecodedInstr := by
  unfold Obligations.StepRunsTheDecodedInstr
  constructor
  · intro s w hw
    exact step_of_fetch (by simp only [State.fetch, hw])
  · intro s w
    apply step_of_fetch
    rw [fetch_withFetchWord, Nat.mod_eq_of_lt w.isLt, BitVec.ofNat_toNat, BitVec.setWidth_eq]

/-- Where the pc is no loaded index the fetch reads 0 or faults (R28). -/
theorem fetch_past_program {s : State} (h : s.imemSize ≤ s.pc.toNat) :
    s.fetch =
      if s.params.unloadedFetch = .zero then .ok 0 else .error (.unloadedFetch s.pc) := by
  have hn : s.imem[s.pc.toNat]? = none := List.getElem?_eq_none_iff.mpr h
  rcases fetch_cases s with ⟨w, hw, -⟩ | ⟨-, hp, hf⟩ | ⟨-, hp, hf⟩
  · rw [hn] at hw
    cases hw
  · rw [hf, hp]
    rfl
  · rw [hf, hp]
    rfl

/-- Settles O22: a fetch of 0 decodes to an inert instruction, and the other fetch is the fault. -/
theorem stepPastTheProgram : Obligations.StepPastTheProgram := by
  unfold Obligations.StepPastTheProgram
  intro s hs
  have hf := fetch_past_program hs
  constructor
  · intro hp
    rw [if_pos hp] at hf
    refine ⟨{ s with pc := s.pc + 1 }, ?_, ?_⟩
    · rw [step_of_fetch hf]
      exact execInert_eq _ s
    · exact ⟨rfl, fun _ => rfl, fun _ => rfl, fun _ => rfl, fun _ => Iff.rfl, rfl, rfl⟩
  · intro hp
    rw [if_neg (by rw [hp]; decide)] at hf
    exact step_of_fetch_error hf

/-! ### Runs -/

/-- No step writes the program or the parameters (R28; log 1). -/
theorem step_imem_params {s t : State} (h : step s = .next t) :
    t.imem = s.imem ∧ t.params = s.params := by
  obtain ⟨w, hf, -⟩ := step_next h
  rw [step_next_eq_cycle hf h]
  exact ⟨cycle_imem _ _ _, cycle_params _ _ _⟩

/-- No step reaches data memory at address 32 or above (R45). -/
theorem step_high_data {s t : State} (h : step s = .next t) {a : Nat} (ha : 32 ≤ a) :
    t.readData a = s.readData a ∧ (a ∈ t.wd ↔ a ∈ s.wd) := by
  obtain ⟨w, hf, -⟩ := step_next h
  rw [step_next_eq_cycle hf h]
  have hne : ∀ r : RegIdx, a ≠ r.toNat := fun r => by
    have := r.isLt
    omega
  exact ⟨by simp [readData_cycle, hne], by simp [mem_wd_cycle, hne]⟩

theorem run_imem_params {n : Nat} {s t : State} (h : runCycles n s = .next t) :
    t.imem = s.imem ∧ t.params = s.params := by
  refine runCycles_induction (P := fun s t => t.imem = s.imem ∧ t.params = s.params)
    (fun _ => ⟨rfl, rfl⟩) ?_ n s t h
  rintro s t u hst ⟨hi, hp⟩
  obtain ⟨hi', hp'⟩ := step_imem_params hst
  exact ⟨hi.trans hi', hp.trans hp'⟩

/-- Settles O31, by induction over the run: no step reaches these. -/
theorem runKeepsProgramAndHighData : Obligations.RunKeepsProgramAndHighData := by
  unfold Obligations.RunKeepsProgramAndHighData
  intro n s t h
  obtain ⟨hi, hp⟩ := run_imem_params h
  refine ⟨hi, hp, fun a ha => ?_⟩
  refine runCycles_induction
    (P := fun s t => t.readData a = s.readData a ∧ (a ∈ t.wd ↔ a ∈ s.wd))
    (fun _ => ⟨rfl, Iff.rfl⟩) ?_ n s t h
  rintro s t u hst ⟨hd, hw⟩
  obtain ⟨hd', hw'⟩ := step_high_data hst ha
  exact ⟨hd.trans hd', hw.trans hw'⟩

/-- A step leaves what a hardwired register 0 holds (R110). -/
theorem step_regs_zero {s t : State} (hz : s.params.r0Hardwired = true) (h : step s = .next t) :
    t.regs[0] = s.regs[0] := by
  obtain ⟨w, hf, -⟩ := step_next h
  rw [step_next_eq_cycle hf h]
  refine (regs_cycle _ _ s 0).trans (if_neg ?_)
  rintro ⟨-, h0, hn⟩
  simp [← h0, hardwiredZero, hz] at hn

/-- Settles O33, by induction over the run: the parameters stay, so every step finds register 0
hardwired. -/
theorem hardwiredZeroStays : Obligations.HardwiredZeroStays := by
  unfold Obligations.HardwiredZeroStays
  intro n s t hz h
  have hp := (run_imem_params h).2
  constructor
  · simp [State.readReg, hardwiredZero, hp, hz]
  · refine runCycles_induction
      (P := fun s t => s.params.r0Hardwired = true → t.regs[0] = s.regs[0])
      (fun _ _ => rfl) ?_ n s t h hz
    intro s t u hst ih hz
    exact (ih ((step_imem_params hst).2 ▸ hz)).trans (step_regs_zero hz hst)

end Sys2Proof.Machine
end

section
/-! PROOFS. A canonical memory is fixed by what it reads as. -/

namespace Sys2Proof.Machine

open Sys2Proof.Spec

section
variable {fill : Nat → Word}

/-- In the canonical form what is listed at an address is known from what is read there. -/
theorem Memory.lookup_eq_of_read {lo : Nat} {m : Memory} (hm : Memory.wfFrom fill lo m = true)
    (a : Nat) :
    Memory.lookup a m =
      if Memory.read fill m a = fill a then none else some (Memory.read fill m a) := by
  unfold Memory.read
  cases hl : Memory.lookup a m with
  | none => simp
  | some v => simp [Memory.lookup_ne_fill m hm hl]

theorem Memory.wfFrom_cons {lo k : Nat} {v : Word} {m : Memory} :
    Memory.wfFrom fill lo ((k, v) :: m) = true ↔
      lo ≤ k ∧ v ≠ fill k ∧ Memory.wfFrom fill (k + 1) m = true := by
  simp [Memory.wfFrom, and_assoc]

/-- A canonical list that lists `k` starts at `k` or below. -/
theorem Memory.head_le_of_lookup {lo k l : Nat} {u v : Word} {m : Memory}
    (hm : Memory.wfFrom fill lo ((l, u) :: m) = true)
    (h : Memory.lookup k ((l, u) :: m) = some v) : l ≤ k := by
  obtain ⟨-, hu, hm'⟩ := Memory.wfFrom_cons.mp hm
  by_contra hlt
  have hwf : Memory.wfFrom fill l ((l, u) :: m) = true := Memory.wfFrom_cons.mpr ⟨le_rfl, hu, hm'⟩
  rw [Memory.lookup_below _ hwf (by omega)] at h
  cases h

theorem Memory.lookup_head (k : Nat) (v : Word) (m : Memory) :
    Memory.lookup k ((k, v) :: m) = some v := if_pos rfl

/-- Canonical memories that list the same are the same list. -/
theorem Memory.eq_of_lookup_eq {lo lo' : Nat} {m m' : Memory}
    (hm : Memory.wfFrom fill lo m = true) (hm' : Memory.wfFrom fill lo' m' = true)
    (h : ∀ a, Memory.lookup a m = Memory.lookup a m') : m = m' := by
  induction m generalizing lo lo' m' with
  | nil =>
    cases m' with
    | nil => rfl
    | cons e m' =>
      have hk := h e.1
      rw [Memory.lookup_head] at hk
      cases hk
  | cons e m ih =>
    obtain ⟨k, v⟩ := e
    have hk := (h k).symm.trans (Memory.lookup_head k v m)
    cases m' with
    | nil => cases hk
    | cons e' m' =>
      obtain ⟨k', v'⟩ := e'
      have hk' := (h k').trans (Memory.lookup_head k' v' m')
      obtain rfl : k = k' :=
        le_antisymm (Memory.head_le_of_lookup hm hk') (Memory.head_le_of_lookup hm' hk)
      rw [Memory.lookup_head] at hk
      cases hk
      obtain ⟨-, -, ht⟩ := Memory.wfFrom_cons.mp hm
      obtain ⟨-, -, ht'⟩ := Memory.wfFrom_cons.mp hm'
      congr 1
      refine ih ht ht' fun a => ?_
      by_cases ha : k = a
      · rw [Memory.lookup_below m ht (by omega), Memory.lookup_below m' ht' (by omega)]
      · simpa [Memory.lookup, ha] using h a

end

/-- Settles O37: in the canonical form equal reads are equal lookups, and these fix the list. -/
theorem canonicalMemoriesAreEqual : Obligations.CanonicalMemoriesAreEqual := by
  unfold Obligations.CanonicalMemoriesAreEqual
  intro fill m m' hm hm' h
  refine Memory.eq_of_lookup_eq hm hm' fun a => ?_
  rw [Memory.lookup_eq_of_read hm, Memory.lookup_eq_of_read hm', h a]

end Sys2Proof.Machine
end

section
/-! PROOFS. The invariant, and the setup and the runs that keep it. -/

namespace Sys2Proof.Machine

open Sys2Proof.Spec

/-! ### The invariant -/

/-- The invariant does not speak of the PC. -/
theorem State.Inv.setPc {s : State} (h : s.Inv) (p : Word) : ({ s with pc := p } : State).Inv :=
  ⟨h.memory_wf, h.data_in_range, h.wd_rising, h.wd_in_range, h.unwritten_reg, h.unwritten_data⟩

/-- Any change of registers and WR that leaves the registers outside WR at their fill. -/
theorem State.Inv.setRegs {s : State} (h : s.Inv) (regs : Vector Word 32) (wr : Vector Bool 32)
    (hfill : ∀ r : RegIdx, wr[r.toNat]'(r.isLt) = false →
      regs[r.toNat]'(r.isLt) = fillReg s.params r.toNat) :
    ({ s with regs := regs, wr := wr } : State).Inv :=
  ⟨h.memory_wf, h.data_in_range, h.wd_rising, h.wd_in_range, hfill, h.unwritten_data⟩

theorem State.Inv.writeReg {s : State} (h : s.Inv) (q : RegIdx) (v : Word) : (s.writeReg q v).Inv := by
  refine h.setRegs _ _ fun r hr => ?_
  change (s.writeReg q v).regWritten r = false at hr
  rw [regWritten_writeReg, Bool.or_eq_false_iff, decide_eq_false_iff_not] at hr
  refine (regs_writeReg s q r v).trans ?_
  rw [if_neg (fun hq => hr.1 hq.1)]
  exact h.unwritten_reg r hr.2

theorem State.Inv.writeData {s : State} (h : s.Inv) {a : Nat} (ha : a < 2 ^ s.params.dmemAddrWidth.val)
    (v : Word) : (s.writeData a v).Inv where
  memory_wf := Memory.wf_write s.dmem a v h.memory_wf
  data_in_range b hb := by
    obtain rfl | hb := Memory.lookup_write_isSome s.dmem a b v hb
    · exact ha
    · exact h.data_in_range b hb
  wd_rising := risingFrom_insertKey a 0 s.wd (Nat.zero_le a) h.wd_rising
  wd_in_range b hb := by
    obtain rfl | hb := (wd_writeData s a b v).mp hb
    · exact ha
    · exact h.wd_in_range b hb
  unwritten_reg := h.unwritten_reg
  unwritten_data b hb := by
    rw [wd_writeData, not_or] at hb
    rw [readData_writeData, if_neg hb.1]
    exact h.unwritten_data b hb.2

/-- A five-bit index is an address of data memory at every DMEM_ADDR_WIDTH (R173). -/
theorem regIdx_lt_dmemSize (q : RegIdx) (w : AddrWidth) : q.toNat < 2 ^ w.val :=
  q.isLt.trans_le (Nat.pow_le_pow_right (by omega) w.property.1)

/-- Settles O36: a step is one register write, one write of an address below 32, or neither, and each
keeps the invariant. -/
theorem stepKeepsTheInvariant : Obligations.StepKeepsTheInvariant := by
  unfold Obligations.StepKeepsTheInvariant
  intro s t hs h
  obtain ⟨w, -, hx⟩ := step_next h
  obtain ⟨q, v, rfl⟩ | ⟨q, v, rfl⟩ | rfl | ⟨_, _, _, -, -, rfl⟩ := exec_next_cases hx
  · exact (hs.writeReg q v).setPc _
  · exact (hs.writeData (regIdx_lt_dmemSize q _) v).setPc _
  · exact hs.setPc _
  · exact hs.setPc _

/-! ### Setup -/

/-- The state before any injection has the invariant. -/
theorem initialState_inv (p : Params) (imem : List Word) : (initialState p imem).Inv where
  memory_wf := rfl
  data_in_range _ h := by cases h
  wd_rising := rfl
  wd_in_range _ h := by cases h
  unwritten_reg r _ := by simp [initialState]
  unwritten_data _ _ := rfl

/-- With the default parameters it is the reset state, with the program loaded. -/
theorem initialState_default (imem : List Word) :
    initialState Params.default imem = { State.reset with imem := imem } := by
  have hregs : Vector.ofFn (fun i : Fin 32 => fillReg Params.default i.val) =
      Vector.replicate 32 0 := by
    ext i hi
    simp [fillReg, Params.default]
  unfold initialState
  rw [hregs]
  rfl

/-- Settles O35: the reset state is the default launch's state before any injection. -/
theorem invariantHoldsAtReset : Obligations.InvariantHoldsAtReset := by
  unfold Obligations.InvariantHoldsAtReset
  have h := initialState_inv Params.default []
  rwa [initialState_default] at h

theorem injectReg_inv {s t : State} {i v : Nat} (hs : s.Inv) (h : injectReg s i v = .ok t) : t.Inv := by
  obtain ⟨hi, -, rfl⟩ := injectReg_ok h
  refine hs.setRegs _ _ fun r hr => ?_
  have hne : i ≠ r.toNat := by
    rintro rfl
    simp at hr
  rw [Vector.getElem_set_ne _ _ hne] at hr ⊢
  exact hs.unwritten_reg r hr

theorem injectData_inv {s t : State} {a v : Nat} (hs : s.Inv) (h : injectData s a v = .ok t) :
    t.Inv := by
  obtain ⟨ha, -, rfl⟩ := injectData_ok h
  exact hs.writeData ha _

/-- What the state before any injection has and every injection keeps, the setup's state has. -/
theorem setup_induction {P : State → Prop} {l : Launch} {s : State}
    (init : ∀ imem, P (initialState l.params imem))
    (reg : ∀ s i v t, P s → injectReg s i v = .ok t → P t)
    (data : ∀ s a v t, P s → injectData s a v = .ok t → P t) (h : setup l = .next s) : P s := by
  obtain ⟨imem, s₁, -, hr, hd⟩ := setup_next h
  exact injectAll_induction data _ (injectAll_induction reg _ (init imem) hr) hd

theorem setup_inv {l : Launch} {s : State} (h : setup l = .next s) : s.Inv :=
  setup_induction (initialState_inv _) (fun _ _ _ _ => injectReg_inv) (fun _ _ _ _ => injectData_inv) h

theorem setup_params {l : Launch} {s : State} (h : setup l = .next s) : s.params = l.params := by
  refine setup_induction (P := fun s => s.params = l.params) (fun _ => rfl) ?_ ?_ h
  · intro s i v t hs ht
    obtain ⟨hi, -, rfl⟩ := injectReg_ok ht
    exact hs
  · intro s a v t hs ht
    obtain ⟨-, -, rfl⟩ := injectData_ok ht
    exact hs

/-- Settles O41: setup gives the invariant and every step of the run keeps it. -/
theorem reachableStatesSatisfyTheInvariant : Obligations.ReachableStatesSatisfyTheInvariant := by
  unfold Obligations.ReachableStatesSatisfyTheInvariant
  rintro l s t hs ⟨n, hn⟩
  exact runCycles_induction (P := fun s t => s.Inv → t.Inv) (fun _ => id)
    (fun s t u hst ih hs => ih (stepKeepsTheInvariant s t hs hst)) n s t hn (setup_inv hs)

/-- A register in WR is listed by the snapshot. -/
theorem mem_inspect_regs {s : State} {r : RegIdx} (h : s.regWritten r = true) :
    (r.toNat, s.readReg r) ∈ (inspect s).regs := by
  refine List.mem_map.mpr ⟨r.toNat, List.mem_filter.mpr ⟨List.mem_range.mpr r.isLt, ?_⟩, ?_⟩ <;>
    simp [h]

/-- An address in WD is listed by the snapshot. -/
theorem mem_inspect_data {s : State} {a : Nat} (h : a ∈ s.wd) :
    (a, s.readData a) ∈ (inspect s).data :=
  List.mem_map.mpr ⟨a, h, rfl⟩

/-- Settles O43: an unlisted location is in no written-set, so by the invariant it holds its fill. -/
theorem unlistedLocationsHoldTheirFill : Obligations.UnlistedLocationsHoldTheirFill := by
  unfold Obligations.UnlistedLocationsHoldTheirFill
  intro l s t hs hst
  have hinv : t.Inv := reachableStatesSatisfyTheInvariant l s t hs hst
  obtain ⟨n, hn⟩ := hst
  have hp : t.params = l.params := (run_imem_params hn).2.trans (setup_params hs)
  rw [← hp]
  constructor
  · intro i hi
    obtain ⟨r, rfl⟩ := regIndex_surjective i
    exact hinv.unwritten_reg r (by_contra fun hw => hi _ (mem_inspect_regs (by simpa using hw)))
  · intro a ha
    exact hinv.unwritten_data a fun hw => ha _ (mem_inspect_data hw)

end Sys2Proof.Machine
end

section
/-! PROOFS. The values that a setup gives. -/

namespace Sys2Proof.Machine

open Sys2Proof.Spec

/-! ### The reset values -/

/-- Each loaded word is what its text parses to. -/
theorem parseProgram_ok {k : Nat} {ts : List (List Char)} {ws : List Word}
    (h : parseProgram k ts = .ok ws) : ts.map parseWordText = ws.map Except.ok := by
  induction ts generalizing k ws with
  | nil =>
    cases h
    rfl
  | cons t ts ih =>
    unfold parseProgram at h
    cases ht : parseWordText t with
    | error why =>
      rw [ht] at h
      cases h
    | ok w =>
      simp only [ht] at h
      cases hts : parseProgram (k + 1) ts with
      | error r =>
        rw [hts] at h
        cases h
      | ok ws' =>
        rw [hts] at h
        cases h
        rw [List.map_cons, List.map_cons, ht, ih hts]

/-- Texts that parse load the words they parse to. -/
theorem parseProgram_of_parse {k : Nat} {ts : List (List Char)} {ws : List Word}
    (h : ts.map parseWordText = ws.map Except.ok) : parseProgram k ts = .ok ws := by
  induction ts generalizing k ws with
  | nil =>
    cases ws with
    | nil => rfl
    | cons w ws => cases h
  | cons t ts ih =>
    cases ws with
    | nil => cases h
    | cons w ws =>
      rw [List.map_cons, List.map_cons, List.cons.injEq] at h
      unfold parseProgram
      rw [h.1, ih h.2]

theorem loadProgram_ok {ts : List (List Char)} {ws : List Word} (h : loadProgram ts = .ok ws) :
    ts.map parseWordText = ws.map Except.ok := by
  unfold loadProgram at h
  split_ifs at h
  exact parseProgram_ok h

/-- An observation of one location that an injection there sets and no other injection touches. -/
structure Injects {α : Type} (inject : State → Nat → Nat → Except Refusal State)
    (obs : State → Nat → α) (val : Nat → α) : Prop where
  hit : ∀ {s k v t}, inject s k v = .ok t → obs t k = val v
  miss : ∀ {s k v t j}, inject s k v = .ok t → j ≠ k → obs t j = obs s j

section
variable {α : Type} {inject : State → Nat → Nat → Except Refusal State} {obs : State → Nat → α}
  {val : Nat → α}

theorem injectAll_cons {s t : State} {k v : Nat} {l : List (Nat × Nat)}
    (h : injectAll inject s ((k, v) :: l) = .ok t) :
    ∃ u, inject s k v = .ok u ∧ injectAll inject u l = .ok t := by
  simp only [injectAll] at h
  cases hk : inject s k v with
  | error r =>
    rw [hk] at h
    cases h
  | ok u =>
    rw [hk] at h
    exact ⟨u, rfl, h⟩

/-- A location no injection names is as before. -/
theorem Injects.obs_unlisted (hi : Injects inject obs val) {l : List (Nat × Nat)} {s t : State}
    (h : injectAll inject s l = .ok t) {j : Nat} (hj : j ∉ l.map Prod.fst) : obs t j = obs s j := by
  induction l generalizing s with
  | nil =>
    cases h
    rfl
  | cons e l ih =>
    obtain ⟨u, hu, ht⟩ := injectAll_cons h
    rw [List.map_cons, List.mem_cons, not_or] at hj
    exact (ih ht hj.2).trans (hi.miss hu hj.1)

/-- A location named once has its injected value. -/
theorem Injects.obs_listed (hi : Injects inject obs val) {l : List (Nat × Nat)} {s t : State}
    (h : injectAll inject s l = .ok t) (hn : (l.map Prod.fst).Nodup) {j v : Nat} (hj : (j, v) ∈ l) :
    obs t j = val v := by
  induction l generalizing s with
  | nil => cases hj
  | cons e l ih =>
    obtain ⟨u, hu, ht⟩ := injectAll_cons h
    rw [List.map_cons, List.nodup_cons] at hn
    obtain rfl | hj := List.mem_cons.mp hj
    · exact (hi.obs_unlisted ht hn.1).trans (hi.hit hu)
    · exact ih ht hn.2 hj

end

/-- What is stored in register `i` and its place in WR. -/
def regEntry (s : State) (i : Nat) : Option Word × Option Bool := (s.regs[i]?, s.wr[i]?)

/-- What reads at address `a` and its place in WD. -/
def dataEntry (s : State) (a : Nat) : Word × Bool := (s.readData a, s.dataWritten a)

theorem injects_injectReg :
    Injects injectReg regEntry fun v => (some (BitVec.ofNat 32 v), some true) where
  hit h := by
    obtain ⟨hi, -, rfl⟩ := injectReg_ok h
    simp [regEntry, hi]
  miss h hne := by
    obtain ⟨hi, -, rfl⟩ := injectReg_ok h
    simp [regEntry, hne.symm]

theorem injects_injectData :
    Injects injectData dataEntry fun v => (BitVec.ofNat 32 v, true) where
  hit h := by
    obtain ⟨-, -, rfl⟩ := injectData_ok h
    simp [dataEntry, readData_writeData, State.dataWritten, mem_insertKey]
  miss h hne := by
    obtain ⟨-, -, rfl⟩ := injectData_ok h
    simp [dataEntry, readData_writeData, State.dataWritten, mem_insertKey, hne]

theorem injectAll_injectReg_frame {s t : State} {l : List (Nat × Nat)}
    (h : injectAll injectReg s l = .ok t) :
    t.pc = s.pc ∧ t.imem = s.imem ∧ ∀ a, dataEntry t a = dataEntry s a := by
  refine injectAll_induction
    (P := fun t => t.pc = s.pc ∧ t.imem = s.imem ∧ ∀ a, dataEntry t a = dataEntry s a)
    ?_ l ⟨rfl, rfl, fun _ => rfl⟩ h
  intro u i v t hu ht
  obtain ⟨hi, -, rfl⟩ := injectReg_ok ht
  exact hu

theorem injectAll_injectData_frame {s t : State} {l : List (Nat × Nat)}
    (h : injectAll injectData s l = .ok t) :
    t.pc = s.pc ∧ t.imem = s.imem ∧ ∀ i, regEntry t i = regEntry s i := by
  refine injectAll_induction
    (P := fun t => t.pc = s.pc ∧ t.imem = s.imem ∧ ∀ i, regEntry t i = regEntry s i)
    ?_ l ⟨rfl, rfl, fun _ => rfl⟩ h
  intro u a v t hu ht
  obtain ⟨-, -, rfl⟩ := injectData_ok ht
  exact hu

theorem regEntry_eq {s : State} {i : Fin 32} {v : Word} {b : Bool} :
    regEntry s i.val = (some v, some b) ↔ s.regs[i] = v ∧ s.wr[i] = b := by
  simp [regEntry]

theorem regEntry_initialState (p : Params) (imem : List Word) (i : Fin 32) :
    regEntry (initialState p imem) i.val = (some (fillReg p i.val), some false) :=
  regEntry_eq.mpr (by simp [initialState])

theorem dataEntry_eq {s : State} {a : Nat} {v : Word} {b : Bool} :
    dataEntry s a = (v, b) ↔ s.readData a = v ∧ s.dataWritten a = b :=
  Prod.mk.injEq .. ▸ Iff.rfl

theorem dataWritten_iff {s : State} {a : Nat} : s.dataWritten a = true ↔ a ∈ s.wd :=
  List.contains_iff_mem

theorem dataEntry_initialState (p : Params) (imem : List Word) (a : Nat) :
    dataEntry (initialState p imem) a = (fillData p a, false) := rfl

/-- Settles O39: register injections set the register entries, data injections the data entries, each
leaving the other's, and what no injection names is as in the initial state. -/
theorem setupGivesTheResetValues : Obligations.SetupGivesTheResetValues := by
  unfold Obligations.SetupGivesTheResetValues
  intro l s h hnr hnd
  obtain ⟨imem, s₁, hl, hr, hd⟩ := setup_next h
  obtain ⟨hpc, himem, hdata⟩ := injectAll_injectReg_frame hr
  obtain ⟨hpc', himem', hreg⟩ := injectAll_injectData_frame hd
  refine ⟨hpc'.trans hpc, setup_params h, ?_, fun i v hv => ?_, fun i hi => ?_, fun a v hv => ?_,
    fun a ha => ?_⟩
  · rw [himem', himem]
    exact loadProgram_ok hl
  · exact regEntry_eq.mp ((hreg i.val).trans (injects_injectReg.obs_listed hr hnr hv))
  · exact regEntry_eq.mp ((hreg i.val).trans
      ((injects_injectReg.obs_unlisted hr hi).trans (regEntry_initialState _ _ i)))
  · obtain ⟨hv, hw⟩ := dataEntry_eq.mp (injects_injectData.obs_listed hd hnd hv)
    exact ⟨hv, dataWritten_iff.mp hw⟩
  · obtain ⟨hv, hw⟩ := dataEntry_eq.mp ((injects_injectData.obs_unlisted hd ha).trans
      ((hdata a).trans (dataEntry_initialState _ _ a)))
    exact ⟨hv, fun hmem => absurd (dataWritten_iff.mpr hmem) (by simp [hw])⟩

end Sys2Proof.Machine
end

section
/-! PROOFS. The text of words, and the reset state as a setup. -/

namespace Sys2Proof.Machine

open Sys2Proof.Spec

/-! ### The text of a word -/

theorem hexDigit_hexChar : ∀ d : Fin 16, hexDigit (hexChar d.val) = some d.val := by decide

theorem hexValue_cons (acc : Nat) (c : Char) (cs : List Char) :
    hexValue acc (c :: cs) = (hexDigit c).bind fun d => hexValue (16 * acc + d) cs := by
  rw [hexValue]
  cases hexDigit c <;> rfl

/-- Digits read in two parts. -/
theorem hexValue_append (acc : Nat) (xs ys : List Char) :
    hexValue acc (xs ++ ys) = (hexValue acc xs).bind fun v => hexValue v ys := by
  induction xs generalizing acc with
  | nil => rfl
  | cons c xs ih =>
    rw [List.cons_append, hexValue_cons, hexValue_cons]
    cases hexDigit c with
    | none => rfl
    | some d => exact ih _

theorem hexValue_hexChar (acc d : Nat) (h : d < 16) :
    hexValue acc [hexChar d] = some (16 * acc + d) := by
  have hd : hexDigit (hexChar d) = some d := hexDigit_hexChar ⟨d, h⟩
  simp only [hexValue, hd]

theorem hexValue_hexDigits (n v : Nat) : hexValue 0 (hexDigits n v) = some (v % 16 ^ n) := by
  induction n generalizing v with
  | zero => simp [hexDigits, hexValue, Nat.mod_one]
  | succ n ih =>
    have hv : v % 16 ^ (n + 1) = 16 * (v / 16 % 16 ^ n) + v % 16 := by
      rw [Nat.pow_succ', Nat.mod_mul, Nat.add_comm]
    rw [hexDigits, hexValue_append, ih, Option.bind_some,
      hexValue_hexChar _ _ (Nat.mod_lt _ (by omega)), hv]

theorem length_hexDigits (n v : Nat) : (hexDigits n v).length = n := by
  induction n generalizing v with
  | zero => rfl
  | succ n ih => simp [hexDigits, ih]

/-- The eight-digit text of a word is read back as that word. -/
theorem parseWordText_wordText (w : Word) : parseWordText (wordText w) = .ok w := by
  have hlen : (wordText w).length = 8 := length_hexDigits 8 w.toNat
  have hne : wordText w ≠ [] := List.ne_nil_of_length_pos (by omega)
  have hval : hexValue 0 (wordText w) = some w.toNat := by
    rw [wordText, hexValue_hexDigits, Nat.mod_eq_of_lt (show w.toNat < 16 ^ 8 from w.isLt)]
  simp [parseWordText, hne, hval, hlen]

/-- Settles O40: the texts are read back as their words, and the default launch's initial state is the
reset state with that program. -/
theorem resetIsTheDefaultSetup : Obligations.ResetIsTheDefaultSetup := by
  unfold Obligations.ResetIsTheDefaultSetup
  intro ws hws
  have hparse : (ws.map wordText).map parseWordText = ws.map Except.ok := by
    simp [parseWordText_wordText]
  have hload : loadProgram (ws.map wordText) = .ok ws := by
    rw [loadProgram, if_neg (by simpa using hws), parseProgram_of_parse hparse]
  rw [← initialState_default]
  simp only [setup, hload, injectAll]

end Sys2Proof.Machine
end

section
/-! PROOFS. Noninterference of data memory: no read of a cycle is of data memory or WD, so two states that
differ there only go through the same cycles (20_memory.md R46). -/

namespace Sys2Proof.Machine

open Sys2Proof.Spec

/-- `s` with other contents of data memory and WD. -/
def State.withData (s : State) (m : Memory) (l : List Nat) : State := { s with dmem := m, wd := l }

section
variable (s : State) (m : Memory) (l : List Nat)

/-! ### What a cycle reads is not in data memory or WD -/

@[simp] theorem withData_params : (s.withData m l).params = s.params := rfl
@[simp] theorem withData_pc : (s.withData m l).pc = s.pc := rfl
@[simp] theorem fetch_withData : (s.withData m l).fetch = s.fetch := rfl

@[simp] theorem operandA_withData (f : Fields) : operandA f (s.withData m l) = operandA f s := rfl
@[simp] theorem operandB_withData (c : ControlSignals) (f : Fields) :
    operandB c f (s.withData m l) = operandB c f s := rfl
@[simp] theorem cycleResult_withData (c : ControlSignals) (f : Fields) :
    cycleResult c f (s.withData m l) = cycleResult c f s := rfl

/-! ### What a cycle writes differs in data memory and WD only -/

theorem setPc_withData (p : Word) :
    { s.withData m l with pc := p } = ({ s with pc := p } : State).withData m l := rfl

/-- The register gate leaves data memory and WD as they are; the data gate writes the same word at the
same address of both. -/
theorem writeback_withData (c : ControlSignals) (dst : RegIdx) (v : Word) :
    ∃ m' l', writeback c dst v (s.withData m l) = (writeback c dst v s).withData m' l' := by
  unfold writeback
  cases c.memWrite with
  | false => exact ⟨m, l, by cases c.regWrite <;> rfl⟩
  | true =>
    exact ⟨Memory.write (fillData s.params) m dst.toNat v, insertKey dst.toNat l,
      by cases c.regWrite <;> rfl⟩

theorem cycle_withData (c : ControlSignals) (f : Fields) :
    ∃ m' l', cycle c f (s.withData m l) = (cycle c f s).withData m' l' := by
  obtain ⟨m', l', hw⟩ := writeback_withData s m l c (destinationRegister c f) (cycleResult c f s)
  refine ⟨m', l', ?_⟩
  simp only [cycle_eq_writeback, cycleResult_withData, operandA_withData, operandB_withData,
    withData_pc, hw, setPc_withData]

/-- A step from either state goes on to states that differ in data memory and WD only, or both steps
stop with the fetch's fault. -/
theorem step_withData :
    (∃ t m' l', step s = .next t ∧ step (s.withData m l) = .next (t.withData m' l')) ∨
    (∃ r, step s = .fault r ∧ step (s.withData m l) = .fault r) := by
  have hfetch := fetch_withData s m l
  cases hf : s.fetch with
  | ok w =>
    obtain ⟨m', l', hc⟩ :=
      cycle_withData s m l (rowOf s.params (decode w)) (decode w).fields
    left
    refine ⟨_, m', l', (step_of_fetch hf).trans (exec_eq_cycle _ s), ?_⟩
    rw [step_of_fetch (hfetch.trans hf), exec_eq_cycle, withData_params, hc]
  | error r => exact .inr ⟨r, step_of_fetch_error hf, step_of_fetch_error (hfetch.trans hf)⟩

end

/-- Settles O32, by induction on the number of cycles: the states before each cycle differ in data memory
and WD only, and a step keeps that or stops both runs. -/
theorem dataMemoryInfluencesNothing : Obligations.DataMemoryInfluencesNothing := by
  unfold Obligations.DataMemoryInfluencesNothing
  intro n
  induction n with
  | zero => exact fun s m l => .inl ⟨s, m, l, rfl, rfl⟩
  | succ n ih =>
    intro s m l
    rw [← State.withData]
    obtain ⟨t, m', l', hs, hd⟩ | ⟨r, hs, hd⟩ := step_withData s m l
    · rw [runCycles_succ_next hs, runCycles_succ_next hd]
      exact ih t m' l'
    · exact .inr ⟨r, runCycles_succ_fault hs, runCycles_succ_fault hd⟩

end Sys2Proof.Machine
end

section
/-! PROOFS. The decoder and the encoder: each pair of codes selects its instruction, and no bit is lost in
either direction (30_encoding.md R60 to R66). -/

namespace Sys2Proof.Machine

open Sys2Proof.Spec

/-! ### The instruction that each pair of codes selects (R64) -/

section
variable {f : Fields}

theorem selectInstr_add (hop : f.opcode = 0x00) (hfn : f.functionCode = 0x20) :
    selectInstr f = .add f.rs f.rt f.rd f.shiftAmount := by
  simp [selectInstr, hop, hfn]

theorem selectInstr_and (hop : f.opcode = 0x00) (hfn : f.functionCode = 0x24) :
    selectInstr f = .and f.rs f.rt f.rd f.shiftAmount := by
  simp [selectInstr, hop, hfn]

theorem selectInstr_slt (hop : f.opcode = 0x00) (hfn : f.functionCode = 0x2A) :
    selectInstr f = .slt f.rs f.rt f.rd f.shiftAmount := by
  simp [selectInstr, hop, hfn]

theorem selectInstr_addi (hop : f.opcode = 0x08) :
    selectInstr f = .addi f.rs f.rt f.immediate16 := by
  simp [selectInstr, hop]

theorem selectInstr_lui (hop : f.opcode = 0x0F) :
    selectInstr f = .lui f.rs f.rt f.immediate16 := by
  simp [selectInstr, hop]

theorem selectInstr_lw (hop : f.opcode = 0x23) :
    selectInstr f = .lw f.rs f.rt f.immediate16 := by
  simp [selectInstr, hop]

theorem selectInstr_sw (hop : f.opcode = 0x2B) :
    selectInstr f = .sw f.rs f.rt f.immediate16 := by
  simp [selectInstr, hop]

theorem selectInstr_beq (hop : f.opcode = 0x04) :
    selectInstr f = .beq f.rs f.rt f.immediate16 := by
  simp [selectInstr, hop]

/-- The codes that select no row: R64's "any other" under opcode 0x00 and among the opcodes. -/
theorem selectsNoRow_iff :
    f.selectsNoRow = true ↔
      f.opcode = 0x00 ∧ f.functionCode ∉ [0x20, 0x24, 0x2A] ∨
        f.opcode ∉ [0x00, 0x04, 0x08, 0x0F, 0x23, 0x2B] := by
  unfold Fields.selectsNoRow
  split_ifs with hop
  · simp [hop]
  · have hop' : f.opcode ≠ 0#6 := hop
    simp [hop']

theorem selectInstr_inert (h : f.selectsNoRow = true) : selectInstr f = .inert f := by
  obtain ⟨hop, hfn⟩ | hop := selectsNoRow_iff.mp h
  · simp only [List.mem_cons, List.not_mem_nil, or_false, not_or] at hfn
    obtain ⟨hadd, hand, hslt⟩ := hfn
    rw [selectInstr, if_pos hop, if_neg hadd, if_neg hand, if_neg hslt]
  · simp only [List.mem_cons, List.not_mem_nil, or_false, not_or] at hop
    obtain ⟨h0, hbeq, haddi, hlui, hlw, hsw⟩ := hop
    rw [selectInstr, if_neg h0, if_neg haddi, if_neg hlui, if_neg hlw, if_neg hsw, if_neg hbeq]

end

/-- What the decoder selects is well-formed: it answers `inert` in R64's two "any other" cases only. -/
theorem wellFormed_selectInstr (f : Fields) : (selectInstr f).WellFormed := by
  unfold selectInstr
  split_ifs with hop hadd hand hslt haddi hlui hlw hsw hbeq
  any_goals rfl
  · exact selectsNoRow_iff.mpr (.inl ⟨hop, by simpa using ⟨hadd, hand, hslt⟩⟩)
  · exact selectsNoRow_iff.mpr (.inr (by simpa using ⟨hop, hbeq, haddi, hlui, hlw, hsw⟩))

/-- A word is inert exactly where its codes select no row. -/
theorem decode_inert_iff (w : Word) :
    (∃ f, decode w = .inert f) ↔ (decodeFields w).selectsNoRow = true := by
  constructor
  · rintro ⟨f, hf⟩
    have hfields : (decode w).fields = decodeFields w := fields_selectInstr _
    have hwf : (decode w).WellFormed := wellFormed_selectInstr _
    rw [hf] at hfields hwf
    exact hfields ▸ hwf
  · exact fun h => ⟨_, selectInstr_inert h⟩

/-! ### The round trips -/

/-- The fields of a well-formed instruction select that instruction. -/
theorem selectInstr_fields {i : Instr} (h : i.WellFormed) : selectInstr i.fields = i := by
  cases i with
  | add rs rt rd sh => exact selectInstr_add rfl rfl
  | and rs rt rd sh => exact selectInstr_and rfl rfl
  | slt rs rt rd sh => exact selectInstr_slt rfl rfl
  | addi rs rt imm =>
    exact (selectInstr_addi rfl).trans (congrArg (Instr.addi rs rt) (immediate16_ofImm _ _ _ _))
  | lui rs rt imm =>
    exact (selectInstr_lui rfl).trans (congrArg (Instr.lui rs rt) (immediate16_ofImm _ _ _ _))
  | lw rs rt imm =>
    exact (selectInstr_lw rfl).trans (congrArg (Instr.lw rs rt) (immediate16_ofImm _ _ _ _))
  | sw rs rt imm =>
    exact (selectInstr_sw rfl).trans (congrArg (Instr.sw rs rt) (immediate16_ofImm _ _ _ _))
  | beq rs rt imm =>
    exact (selectInstr_beq rfl).trans (congrArg (Instr.beq rs rt) (immediate16_ofImm _ _ _ _))
  | inert f => exact selectInstr_inert h

/-- Settles O2: the decoder reads the instruction's own fields back from its word, and these select it. -/
theorem decodeOfEncode : Obligations.DecodeOfEncode := by
  unfold Obligations.DecodeOfEncode
  intro i hi
  rw [decode, encode, decodeFields_encode, selectInstr_fields hi]

/-- Settles O3: selecting a row drops no field of the word, and the fields' bit picture is the word. -/
theorem encodeOfDecode : Obligations.EncodeOfDecode := by
  unfold Obligations.EncodeOfDecode
  intro w
  refine ⟨wellFormed_selectInstr _, ?_⟩
  rw [encode, decode, fields_selectInstr, encode_decodeFields]

/-! ### The fields as numbers (R61, R82) -/

/-- Settles O4: each field is an extract of the word, whose number is the quotient's remainder. -/
theorem decodedFieldsAreTheirBits : Obligations.DecodedFieldsAreTheirBits := by
  unfold Obligations.DecodedFieldsAreTheirBits
  intro w
  have hext (lo n : Nat) : (w.extractLsb' lo n).toNat = field w lo n := by
    rw [BitVec.extractLsb'_toNat, Nat.shiftRight_eq_div_pow, field]
  have himm : (decodeFields w).immediate16.toNat = field w 0 16 := by
    rw [decodeFields_immediate16_eq_ofNat, BitVec.toNat_ofNat, field, Nat.pow_zero, Nat.div_one]
  exact ⟨hext 26 6, hext 21 5, hext 16 5, hext 11 5, hext 6 5, hext 0 6, himm, rfl⟩

/-- Settles O5: the numbers of the statement are those of the decoder's fields, so that each case is the
equation of the selection under its codes. -/
theorem opcodeMapSelectsInstr : Obligations.OpcodeMapSelectsInstr := by
  unfold Obligations.OpcodeMapSelectsInstr
  intro w
  obtain ⟨hop, hrs, hrt, hrd, hsh, hfn, himm, -⟩ := decodedFieldsAreTheirBits w
  have hcode {c : Code6} {n : Nat} (h : c.toNat = n) (hn : n < 2 ^ 6) : c = BitVec.ofNat 6 n :=
    BitVec.eq_of_toNat_eq (by rw [h, BitVec.toNat_ofNat, Nat.mod_eq_of_lt hn])
  simp only [← hop, ← hrs, ← hrt, ← hrd, ← hsh, ← hfn, ← himm, BitVec.ofNat_toNat, BitVec.setWidth_eq]
  refine ⟨fun ⟨ho, hf⟩ => selectInstr_add (hcode ho (by decide)) (hcode hf (by decide)),
    fun ⟨ho, hf⟩ => selectInstr_and (hcode ho (by decide)) (hcode hf (by decide)),
    fun ⟨ho, hf⟩ => selectInstr_slt (hcode ho (by decide)) (hcode hf (by decide)),
    fun ho => selectInstr_addi (hcode ho (by decide)),
    fun ho => selectInstr_lui (hcode ho (by decide)),
    fun ho => selectInstr_lw (hcode ho (by decide)),
    fun ho => selectInstr_sw (hcode ho (by decide)),
    fun ho => selectInstr_beq (hcode ho (by decide)),
    fun h => selectInstr_inert (selectsNoRow_iff.mpr ?_),
    fun p => (rowOf_selectInstr p _).symm⟩
  simpa [← BitVec.toNat_inj] using h

/-- Settles O1: the decoder evaluates on each of the ten words. -/
theorem specWordsDecode : Obligations.SpecWordsDecode := by
  unfold Obligations.SpecWordsDecode
  decide

end Sys2Proof.Machine
end

section
/-! PROOFS. The number of inert words (30_encoding.md R66): a word is inert by its two codes alone, and the
other 20 bits are free. -/

namespace Sys2Proof.Machine

open Sys2Proof.Spec

/-- The (opcode, functionCode) pairs that select no row. -/
def inertCodes : Set (Code6 × Code6) :=
  {x | x.1 = 0x00 ∧ x.2 ∉ [0x20, 0x24, 0x2A] ∨ x.1 ∉ [0x00, 0x04, 0x08, 0x0F, 0x23, 0x2B]}

theorem mem_inertCodes (f : Fields) :
    (f.opcode, f.functionCode) ∈ inertCodes ↔ f.selectsNoRow = true :=
  selectsNoRow_iff.symm

/-- The pairs as a finite set: the function codes left under opcode 0x00, and the opcodes left with any
function code. -/
theorem inertCodes_eq_coe :
    inertCodes =
      ((({0x00} : Finset Code6) ×ˢ ({0x20, 0x24, 0x2A}ᶜ : Finset Code6) ∪
        ({0x00, 0x04, 0x08, 0x0F, 0x23, 0x2B}ᶜ : Finset Code6) ×ˢ Finset.univ :
          Finset (Code6 × Code6)) : Set (Code6 × Code6)) := by
  ext x
  rw [Finset.mem_coe, Finset.mem_union, Finset.mem_product, Finset.mem_product]
  simp [inertCodes]

theorem ncard_inertCodes : inertCodes.ncard = 61 + 58 * 64 := by
  rw [inertCodes_eq_coe, Set.ncard_coe_finset, Finset.card_union_of_disjoint, Finset.card_product,
    Finset.card_product]
  · decide
  · exact Finset.disjoint_product.mpr (.inl (by simp))

/-- The word with the given codes and the given rs, rt, rd and shiftAmount. -/
def wordOfCodes (x : (Code6 × Code6) × RegIdx × RegIdx × RegIdx × Shamt) : Word :=
  let ((op, fn), rs, rt, rd, sh) := x
  Fields.encode ⟨op, rs, rt, rd, sh, fn⟩

theorem decodeFields_wordOfCodes (op fn : Code6) (rs rt rd : RegIdx) (sh : Shamt) :
    decodeFields (wordOfCodes ((op, fn), rs, rt, rd, sh)) = ⟨op, rs, rt, rd, sh, fn⟩ :=
  decodeFields_encode _

theorem wordOfCodes_injective : Function.Injective wordOfCodes := by
  rintro ⟨⟨op, fn⟩, rs, rt, rd, sh⟩ ⟨⟨op', fn'⟩, rs', rt', rd', sh'⟩ h
  have hf := congrArg decodeFields h
  rw [decodeFields_wordOfCodes, decodeFields_wordOfCodes] at hf
  cases hf
  rfl

/-- The inert words are those of the inert pairs of codes, with the other fields free. -/
theorem inertWords_eq_image :
    {w : Word | ∃ f, decode w = .inert f} =
      wordOfCodes '' (inertCodes ×ˢ Set.univ) := by
  ext w
  rw [Set.mem_ofPred_eq, decode_inert_iff, ← mem_inertCodes, Set.mem_image]
  constructor
  · intro h
    refine ⟨(((decodeFields w).opcode, (decodeFields w).functionCode), (decodeFields w).rs,
      (decodeFields w).rt, (decodeFields w).rd, (decodeFields w).shiftAmount), ?_,
      encode_decodeFields w⟩
    rw [Set.mem_prod]
    exact ⟨h, Set.mem_univ _⟩
  · rintro ⟨⟨⟨op, fn⟩, rs, rt, rd, sh⟩, h, rfl⟩
    rw [Set.mem_prod] at h
    rw [decodeFields_wordOfCodes]
    exact h.1

theorem natCard_bitVec (n : Nat) : Nat.card (BitVec n) = 2 ^ n := by
  rw [Nat.card_eq_fintype_card, ← FinEnum.card_eq_fintypeCard, FinEnum.card_bitVec]

/-- Settles O6: 61 + 58 * 64 pairs of codes, each with 2^20 words. -/
theorem inertWordCount : Obligations.InertWordCount := by
  unfold Obligations.InertWordCount
  have hfree : Nat.card (RegIdx × RegIdx × RegIdx × Shamt) = 2 ^ 20 := by
    simp only [Nat.card_prod, natCard_bitVec]
    rfl
  rw [inertWords_eq_image, Set.ncard_image_of_injective _ wordOfCodes_injective, Set.ncard_prod,
    ncard_inertCodes, Set.ncard_univ, hfree]
  norm_num

end Sys2Proof.Machine
end

section
/-! PROOFS. What the encoding means for execution: ignored fields, the self-loop word, and the assembler
(30_encoding.md R68 to R70). -/

namespace Sys2Proof.Machine

open Sys2Proof.Spec

/-! ### Ignored fields (R68) -/

/-- Settles O20: the next state of each instruction does not name the fields it ignores; under
ADDI_ALU_SRC 0 addi's operand B is x[rt]. -/
theorem ignoredFieldsHaveNoEffect : Obligations.IgnoredFieldsHaveNoEffect := by
  unfold Obligations.IgnoredFieldsHaveNoEffect
  intro rs rs' rt rt' rd sh sh' imm imm' f f' s
  refine ⟨?_, ?_, ?_, ?_, fun hsrc => ?_, ?_⟩
  · exact (execAdd_eq rs rt rd sh s).trans (execAdd_eq rs rt' rd sh' s).symm
  · exact (execAnd_eq rs rt rd sh s).trans (execAnd_eq rs rt' rd sh' s).symm
  · exact (execSlt_eq rs rt rd sh s).trans (execSlt_eq rs rt' rd sh' s).symm
  · exact (execLui_eq rs rt imm s).trans (execLui_eq rs' rt imm s).symm
  · have hb : addiOperandB rt imm s = addiOperandB rt imm' s := by
      simp only [addiOperandB, hsrc]
    refine (execAddi_eq rs rt imm s).trans (Eq.trans ?_ (execAddi_eq rs rt imm' s).symm)
    rw [hb]
  · exact (execInert_eq f s).trans (execInert_eq f' s).symm

/-! ### The taken branch, and the self-loop word (R70, R150) -/

/-- A state with another PC differs in the PC only. -/
theorem writesOnlyPc_setPc (s : State) (p : Word) : WritesOnlyPc s { s with pc := p } p :=
  ⟨rfl, fun _ => rfl, fun _ => rfl, fun _ => rfl, fun _ => Iff.rfl, rfl, rfl⟩

/-- A beq of equal registers moves the PC and changes nothing else. -/
theorem exec_beq_taken {rs rt : RegIdx} {s : State} (h : s.readReg rs = s.readReg rt) (imm : Imm16) :
    exec (.beq rs rt imm) s = .next { s with pc := s.pc + sext32 imm + 1 } :=
  (execBeq_eq rs rt imm s).trans (by rw [if_pos h])

/-- The self-loop word branches to itself, since its offset is -1. -/
theorem step_selfLoop {s : State} (h : s.imem[s.pc.toNat]? = some 0x1000FFFF) : step s = .next s := by
  have hf : s.fetch = .ok 0x1000FFFF := by simp only [State.fetch, h]
  have hd : decode 0x1000FFFF = .beq 0 0 0xFFFF := by decide
  have hpc : s.pc + sext32 0xFFFF + 1 = s.pc := by
    rw [BitVec.add_assoc, show sext32 0xFFFF + 1 = 0 by decide, add_zero]
  rw [step_of_fetch hf, hd, exec_beq_taken rfl, hpc]

/-- Settles O34, by induction on the number of cycles: each step at the self-loop word stays put. -/
theorem selfLoopWordStaysPut : Obligations.SelfLoopWordStaysPut := by
  unfold Obligations.SelfLoopWordStaysPut
  intro s h n
  induction n with
  | zero => exact runCycles_zero s
  | succ n ih => rw [runCycles_succ_next (step_selfLoop h), ih]

/-! ### The assembler and the disassembler (R69) -/

/-- An immediate printed signed is assembled back. -/
theorem assembleImm_toInt (imm : Imm16) : assembleImm imm.toInt = .ok imm := by
  have hlo := BitVec.le_toInt imm
  have hhi := BitVec.toInt_lt (x := imm)
  rw [assembleImm, if_pos (by omega), BitVec.ofInt_toInt]

/-- An immediate printed unsigned is assembled back. -/
theorem assembleImm_toNat (imm : Imm16) : assembleImm (imm.toNat : Int) = .ok imm := by
  have hhi := imm.isLt
  rw [assembleImm, if_pos (by omega), BitVec.ofInt_natCast, BitVec.ofNat_toNat, BitVec.setWidth_eq]

/-- A line printed where a field it does not name is 0, and the word itself elsewhere, need only be
assembled back in the first case. -/
theorem assemble_ite_word {labels : List (List Char × Nat)} {pc : Nat} {p : Prop} [Decidable p]
    {line : AsmLine} {w : Word} (h : p → assemble labels pc line = .ok w) :
    assemble labels pc (if p then line else .word w) = .ok w := by
  split_ifs with hp
  · exact h hp
  · rfl

/-- Settles O45: the line either is the word itself or names every field that is not 0, so that it
assembles to the encoding of the word's own instruction. -/
theorem assembleOfDisassemble : Obligations.AssembleOfDisassemble := by
  unfold Obligations.AssembleOfDisassemble
  intro w labels pc
  have hw : encode (decode w) = w := (encodeOfDecode w).2
  unfold disassemble
  cases hd : decode w with rw [hd] at hw
  | add rs rt rd sh => exact assemble_ite_word fun h => by rw [assemble, ← h, hw]
  | and rs rt rd sh => exact assemble_ite_word fun h => by rw [assemble, ← h, hw]
  | slt rs rt rd sh => exact assemble_ite_word fun h => by rw [assemble, ← h, hw]
  | lui rs rt imm =>
    exact assemble_ite_word fun h => by rw [assemble, assembleImm_toNat, Except.map, ← h, hw]
  | addi rs rt imm => rw [assemble, assembleImm_toInt, Except.map, hw]
  | lw rs rt imm => rw [assemble, assembleImm_toInt, Except.map, hw]
  | sw rs rt imm => rw [assemble, assembleImm_toInt, Except.map, hw]
  | beq rs rt imm => rw [assemble, assembleImm_toInt, Except.map, hw]
  | inert f => rfl

/-- An offset in the signed 16-bit range is sign-extended to itself. -/
theorem sext32_ofInt {n : Int} (hlo : -32768 ≤ n) (hhi : n ≤ 32767) :
    sext32 (BitVec.ofInt 16 n) = BitVec.ofInt 32 n := by
  rw [sext32_eq_signExtended, signExtended, BitVec.toInt_ofInt_eq_self (by decide)] <;> omega

/-- An offset the assembler writes for a label is, sign-extended, the distance from the next index. -/
theorem sext32_of_assembleOffset {labels : List (List Char × Nat)} {pc target : Nat} {label : List Char}
    {imm : Imm16} (hl : labelIndex label labels = some target)
    (h : assembleOffset labels pc label = .ok imm) :
    sext32 imm = BitVec.ofInt 32 ((target : Int) - pc - 1) := by
  rw [assembleOffset, hl] at h
  dsimp only at h
  split_ifs at h with hr
  cases h
  exact sext32_ofInt hr.1 hr.2

/-- From the index `pc`, the offset `target - pc - 1` and one lead to `target`, modulo 2^32. -/
theorem add_offset_add_one (pc : Word) (target : Nat) :
    pc + BitVec.ofInt 32 ((target : Int) - pc.toNat - 1) + 1 = BitVec.ofNat 32 target := by
  calc pc + BitVec.ofInt 32 ((target : Int) - pc.toNat - 1) + 1
      = BitVec.ofInt 32 (pc.toNat + ((target : Int) - pc.toNat - 1) + 1) := by
        rw [BitVec.ofInt_add, BitVec.ofInt_add, BitVec.ofInt_natCast, BitVec.ofNat_toNat,
          BitVec.setWidth_eq]
        rfl
    _ = BitVec.ofInt 32 target := by congr 1; omega
    _ = BitVec.ofNat 32 target := BitVec.ofInt_natCast 32 target

/-- Settles O46: the word is that of a beq whose offset, taken from the index it stands at, leads to the
label's index, and with equal registers the branch is taken. -/
theorem labelBranchReachesItsLabel : Obligations.LabelBranchReachesItsLabel := by
  unfold Obligations.LabelBranchReachesItsLabel
  intro labels label target rs rt w s hl ha heq
  rw [assemble] at ha
  cases ho : assembleOffset labels s.pc.toNat label with rw [ho] at ha
  | error r => cases ha
  | ok imm =>
    cases ha
    have hpc : s.pc + sext32 imm + 1 = BitVec.ofNat 32 target := by
      rw [sext32_of_assembleOffset hl ho, add_offset_add_one]
    rw [decodeOfEncode _ rfl, exec_beq_taken heq]
    exact ⟨_, rfl, hpc ▸ writesOnlyPc_setPc s _⟩

end Sys2Proof.Machine
end

section
/-! PROOFS. The datapath's parts and its cycles: the control table and the ALU (40_datapath.md R84 to
R103), that a cycle completes (R113), and the PC it leaves (R105). -/

namespace Sys2Proof.Machine

open Sys2Proof.Spec

/-! ### The control table -/

/-- Settles O7: each signal is its column of the ControlUnit's bundle as a row of numbers. -/
theorem controlUnitIsTheTable : Obligations.ControlUnitIsTheTable := by
  unfold Obligations.ControlUnitIsTheTable
  intro p opcode funct
  dsimp only
  rw [controlTable_eq_toRow]
  exact ⟨rfl, rfl, rfl, rfl, rfl, rfl, rfl⟩

/-- The ControlUnit has no row but those of the instructions. -/
theorem controlUnit_eq_rowOf (p : Params) (op fn : Code6) : ∃ i, controlUnit p op fn = rowOf p i :=
  ⟨_, (rowOf_selectInstr p ⟨op, 0, 0, 0, 0, fn⟩).symm⟩

/-- No row selects the unused OR or an undefined operation (R97, R101). -/
theorem rowOf_aluOp_mem (p : Params) (i : Instr) : (rowOf p i).aluOp ∈ [0, 1, 3, 4, 5] := by
  cases i <;> exact of_decide_eq_true rfl

theorem addiAluSrcCode_ne_three (a : AddiAluSrc) : addiAluSrcCode a ≠ 3 := by
  cases a <;> decide

/-- No row selects the undefined operand B (R92); addi's is a value of its parameter. -/
theorem rowOf_aluSrc_ne_three (p : Params) (i : Instr) : (rowOf p i).aluSrc ≠ 3 := by
  cases i with
  | addi rs rt imm => exact addiAluSrcCode_ne_three p.addiAluSrc
  | _ => exact of_decide_eq_true rfl

/-- Only beq's row can branch, and it subtracts (R102). -/
theorem rowOf_branchEnable {p : Params} {i : Instr} (h : (rowOf p i).branchEnable = true) :
    rowOf p i = rowBeq := by
  cases i with
  | beq rs rt imm => rfl
  | _ => cases h

/-- Settles O8: what holds of every instruction's row holds of every bundle of the ControlUnit. -/
theorem tableStaysInDefinedValues : Obligations.TableStaysInDefinedValues := by
  unfold Obligations.TableStaysInDefinedValues
  intro p opcode funct
  obtain ⟨i, hi⟩ := controlUnit_eq_rowOf p opcode funct
  rw [hi]
  refine ⟨rowOf_aluOp_mem p i, rowOf_aluSrc_ne_three p i, rowOf_one_write p i, fun hb => ?_⟩
  rw [rowOf_branchEnable hb]
  exact ⟨rfl, rfl⟩

/-! ### The ALU -/

/-- The difference modulo 2^32, as the integers give it. -/
theorem toNat_sub_emod (a b : Word) :
    ((a - b).toNat : Int) = ((a.toNat : Int) - b.toNat) % 2 ^ 32 := by
  rw [BitVec.toNat_sub]
  omega

/-- The zero flag of the subtraction is the equality of the operands (R98). -/
theorem aluZeroFlag_sub (a b : Word) : aluZeroFlag 3 a b = true ↔ a = b := by
  have hz : aluZeroFlag 3 a b = true ↔ a - b = 0 := by simp [aluZeroFlag]
  exact hz.trans sub_eq_zero

/-- Settles O9: each operation is the operation on words of its case of the ALU. -/
theorem aluComputesItsOperations : Obligations.AluComputesItsOperations := by
  unfold Obligations.AluComputesItsOperations
  intro a b sh
  refine ⟨?_, fun i => ?_, fun i => ?_, ?_, aluZeroFlag_sub a b, ?_, ?_⟩
  · exact BitVec.toNat_add a b
  · exact BitVec.getLsbD_and
  · exact BitVec.getLsbD_or
  · exact toNat_sub_emod a b
  · change (if b.toNat < a.toNat then (1 : Word) else 0) = if BitVec.ult b a then 1 else 0
    simp only [BitVec.ult, decide_eq_true_eq]
  · change (b <<< sh.toNat).toNat = _
    rw [BitVec.toNat_shiftLeft, Nat.shiftLeft_eq]

/-! ### Cycles complete -/

theorem exec_completes (i : Instr) (s : State) : ∃ t, exec i s = .next t :=
  ⟨_, exec_eq_cycle i s⟩

/-- Settles O23: a fetched word's instruction completes, so that a step stops only where its fetch
faults. -/
theorem stepIsTotalButForTheFetchFault : Obligations.StepIsTotalButForTheFetchFault := by
  unfold Obligations.StepIsTotalButForTheFetchFault
  refine ⟨exec_completes, fun s => ?_⟩
  have step_completes : ∀ w, s.fetch = .ok w → ∃ t, step s = .next t := fun w hf =>
    step_of_fetch hf ▸ exec_completes (decode w) s
  rcases fetch_cases s with ⟨w, -, hf⟩ | ⟨-, -, hf⟩ | ⟨hpc, hp, hf⟩
  · exact .inl (step_completes w hf)
  · exact .inl (step_completes 0 hf)
  · exact .inr ⟨hp, hpc, step_of_fetch_error hf⟩

/-- Under UNLOADED_FETCH = Zero every step completes (R106). -/
theorem step_completes_of_zeroFetch {s : State} (hz : s.params.unloadedFetch = .zero) :
    ∃ t, step s = .next t := by
  rcases stepIsTotalButForTheFetchFault.2 s with hs | ⟨hfault, -, -⟩
  · exact hs
  · cases hz.symm.trans hfault

/-- Settles O24, by induction on the number of cycles: a step completes and keeps the parameters. -/
theorem runNeverStopsUnderZeroFetch : Obligations.RunNeverStopsUnderZeroFetch := by
  unfold Obligations.RunNeverStopsUnderZeroFetch
  intro s hz n
  induction n generalizing s with
  | zero => exact ⟨s, runCycles_zero s⟩
  | succ n ih =>
    obtain ⟨u, hu⟩ := step_completes_of_zeroFetch hz
    obtain ⟨-, hp⟩ := step_imem_params hu
    rw [runCycles_succ_next hu]
    exact ih u (hp ▸ hz)

/-! ### The PC -/

/-- Settles O25, by the cases of what an instruction can do: only a beq of equal registers does not
advance the PC by one. -/
theorem pcMovesByOneOrByBranch : Obligations.PcMovesByOneOrByBranch := by
  unfold Obligations.PcMovesByOneOrByBranch
  intro s t w hf h
  rw [step_of_fetch hf] at h
  rcases exec_next_cases h with
    ⟨q, v, rfl⟩ | ⟨q, v, rfl⟩ | rfl | ⟨rs, rt, imm, hbeq, heq, rfl⟩
  · exact .inl rfl
  · exact .inl rfl
  · exact .inl rfl
  · exact .inr ⟨rs, rt, imm, hbeq, heq, by rw [sext32_eq_signExtended]⟩

end Sys2Proof.Machine
end

section
/-! PROOFS. The register-register instructions add, and, slt (41_rtype.md): their words, their control
row, and the one register they write. -/

namespace Sys2Proof.Machine

open Sys2Proof.Spec

/-! ### The words under a row's mask (R61, R64) -/

/-- The fields of a bitwise and are those of its operands, field by field. -/
theorem decodeFields_and (x y : Word) :
    decodeFields (x &&& y) =
      ⟨(decodeFields x).opcode &&& (decodeFields y).opcode,
        (decodeFields x).rs &&& (decodeFields y).rs,
        (decodeFields x).rt &&& (decodeFields y).rt,
        (decodeFields x).rd &&& (decodeFields y).rd,
        (decodeFields x).shiftAmount &&& (decodeFields y).shiftAmount,
        (decodeFields x).functionCode &&& (decodeFields y).functionCode⟩ := by
  simp only [decodeFields, BitVec.extractLsb'_and]

/-- A word is the bit picture of its own fields only. -/
theorem eq_encode_iff (w : Word) (f : Fields) : w = f.encode ↔ decodeFields w = f := by
  constructor
  · rintro rfl
    exact decodeFields_encode f
  · rintro rfl
    exact (encode_decodeFields w).symm

/-- Under the mask of R120 to R122 the two codes of a word stay and its other fields are 0. -/
theorem decodeFields_and_codesMask (w : Word) :
    decodeFields (w &&& 0xFC00003F) =
      ⟨(decodeFields w).opcode, 0, 0, 0, 0, (decodeFields w).functionCode⟩ := by
  have hmask : decodeFields 0xFC00003F = ⟨BitVec.allOnes 6, 0, 0, 0, 0, BitVec.allOnes 6⟩ := by decide
  have hzero (x : RegIdx) : x &&& 0 = 0 := BitVec.and_zero
  simp only [decodeFields_and, hmask, BitVec.and_allOnes, hzero]

/-- The words that decode to a register-register instruction `k`, of function code `fn`, are those whose
codes are its own: under the mask they are its word with every operand 0. -/
theorem and_codesMask_eq_iff {k : RegIdx → RegIdx → RegIdx → Shamt → Instr} {fn : Code6}
    (hwf : ∀ rs rt rd sh, (k rs rt rd sh).WellFormed)
    (hfields : ∀ rs rt rd sh, (k rs rt rd sh).fields = ⟨0x00, rs, rt, rd, sh, fn⟩) (w : Word) :
    w &&& 0xFC00003F = encode (k 0 0 0 0) ↔ ∃ rs rt rd sh, decode w = k rs rt rd sh := by
  have hcodes : w &&& 0xFC00003F = encode (k 0 0 0 0) ↔
      (decodeFields w).opcode = 0x00 ∧ (decodeFields w).functionCode = fn := by
    rw [encode, eq_encode_iff, hfields, decodeFields_and_codesMask]
    simp
  rw [hcodes]
  constructor
  · rintro ⟨hop, rfl⟩
    refine ⟨(decodeFields w).rs, (decodeFields w).rt, (decodeFields w).rd,
      (decodeFields w).shiftAmount, ?_⟩
    rw [← selectInstr_fields (hwf _ _ _ _), hfields, ← hop]
    rfl
  · rintro ⟨rs, rt, rd, sh, hd⟩
    have hw : decodeFields w = ⟨0x00, rs, rt, rd, sh, fn⟩ := by
      rw [← hfields, ← hd, decode, fields_selectInstr]
    rw [hw]
    exact ⟨rfl, rfl⟩

/-! ### The register write and its frame (R108, R110, R112) -/

/-- A register write and the advanced PC change what `WritesRegister` names, and nothing else. -/
theorem writesRegister_writeReg (s : State) (q : RegIdx) (v : Word) :
    WritesRegister s { s.writeReg q v with pc := s.pc + 1 } q v where
  pc := rfl
  reg r := by
    have hz : hardwiredZero s.params q = false ↔ ¬(s.params.r0Hardwired = true ∧ q = 0) := by
      simp [hardwiredZero]
    rw [readReg_setPc, readReg_writeReg]
    simp only [hz]
  wr r := by rw [regWritten_setPc, regWritten_writeReg, Bool.or_eq_true, decide_eq_true_eq]
  data _ := rfl
  wd _ := Iff.rfl
  imem := rfl
  params := rfl

/-! ### The three instructions -/

/-- Settles O10: add's next state is the write of the sum to rd. -/
theorem addWritesRsPlusRd : Obligations.AddWritesRsPlusRd := by
  unfold Obligations.AddWritesRsPlusRd
  exact ⟨and_codesMask_eq_iff (k := .add) (fun _ _ _ _ => rfl) (fun _ _ _ _ => rfl), fun _ => rfl,
    fun rs rt rd sh s => ⟨_, execAdd_eq rs rt rd sh s, writesRegister_writeReg s rd _⟩⟩

/-- Settles O11: and's next state is the write of the bitwise and to rd. -/
theorem andWritesRsAndRd : Obligations.AndWritesRsAndRd := by
  unfold Obligations.AndWritesRsAndRd
  exact ⟨and_codesMask_eq_iff (k := .and) (fun _ _ _ _ => rfl) (fun _ _ _ _ => rfl), fun _ => rfl,
    fun rs rt rd sh s => ⟨_, execAnd_eq rs rt rd sh s, writesRegister_writeReg s rd _⟩⟩

/-- Settles O12: slt's next state is the write of the unsigned comparison, rd's old value on the left. -/
theorem sltWritesRdBelowRs : Obligations.SltWritesRdBelowRs := by
  unfold Obligations.SltWritesRdBelowRs
  refine ⟨and_codesMask_eq_iff (k := .slt) (fun _ _ _ _ => rfl) (fun _ _ _ _ => rfl), fun _ => rfl,
    fun rs rt rd sh s => ⟨_, execSlt_eq rs rt rd sh s, ?_⟩⟩
  simp only [BitVec.ult, decide_eq_true_eq]
  exact writesRegister_writeReg s rd _

end Sys2Proof.Machine
end

section
/-! PROOFS. The immediate instructions addi, lui (42_imm_alu.md): their words, their control row, and the
one register they write. -/

namespace Sys2Proof.Machine

open Sys2Proof.Spec

/-! ### The words under the opcode's mask (R61, R64) -/

/-- Under the mask of the rows with an immediate a word's opcode stays and its other fields are 0. -/
theorem decodeFields_and_opcodeMask (w : Word) :
    decodeFields (w &&& 0xFC000000) = ⟨(decodeFields w).opcode, 0, 0, 0, 0, 0⟩ := by
  have hmask : decodeFields 0xFC000000 = ⟨BitVec.allOnes 6, 0, 0, 0, 0, 0⟩ := by decide
  have hreg (x : RegIdx) : x &&& 0 = 0 := BitVec.and_zero
  have hfn (x : Code6) : x &&& 0 = 0 := BitVec.and_zero
  simp only [decodeFields_and, hmask, BitVec.and_allOnes, hreg, hfn]

/-- The words that decode to an instruction `k` with an immediate are those of its opcode: under the mask
they are its word with every operand 0. -/
theorem and_opcodeMask_eq_iff {k : RegIdx → RegIdx → Imm16 → Instr} {op : Code6}
    (hwf : ∀ rs rt imm, (k rs rt imm).WellFormed)
    (hfields : ∀ rs rt imm, (k rs rt imm).fields = Fields.ofImm op rs rt imm) (w : Word) :
    w &&& 0xFC000000 = encode (k 0 0 0) ↔ ∃ rs rt imm, decode w = k rs rt imm := by
  have hopcode : w &&& 0xFC000000 = encode (k 0 0 0) ↔ (decodeFields w).opcode = op := by
    rw [encode, eq_encode_iff, hfields, decodeFields_and_opcodeMask]
    simp [Fields.ofImm]
  rw [hopcode]
  constructor
  · rintro rfl
    refine ⟨(decodeFields w).rs, (decodeFields w).rt, (decodeFields w).immediate16, ?_⟩
    rw [← selectInstr_fields (hwf _ _ _), hfields, ofImm_immediate16, decode]
  · rintro ⟨rs, rt, imm, hd⟩
    have hw : decodeFields w = Fields.ofImm op rs rt imm := by
      rw [← hfields, ← hd, decode, fields_selectInstr]
    rw [hw]
    rfl

/-! ### The two instructions -/

/-- The addi row's `aluSrc` is the number of its variant (R132). -/
theorem addiAluSrcCode_eq_ofNat (a : AddiAluSrc) :
    addiAluSrcCode a = BitVec.ofNat 2 (addiAluSrcNumber a) := by
  rw [← addiAluSrcCode_toNat, BitVec.ofNat_toNat, BitVec.setWidth_eq]

/-- Settles O13: addi's next state is the write to rt of x[rs] plus the operand B of its variant. -/
theorem addiWritesSumInEveryVariant : Obligations.AddiWritesSumInEveryVariant := by
  unfold Obligations.AddiWritesSumInEveryVariant
  refine ⟨and_opcodeMask_eq_iff (k := .addi) (fun _ _ _ => rfl) (fun _ _ _ => rfl), fun p fn => ?_,
    fun rs rt imm s => ⟨_, execAddi_eq rs rt imm s, ?_⟩⟩
  · rw [← addiAluSrcCode_eq_ofNat]
    rfl
  · rw [← sext32_eq_signExtended, ← zext32_eq_zeroExtended]
    exact writesRegister_writeReg s rt (s.readReg rs + addiOperandB rt imm s)

/-- A zero-extended immediate shifted left is its product with a power of 2, modulo 2^32 (R100). -/
theorem zext32_shiftLeft (imm : Imm16) (n : Nat) :
    zext32 imm <<< n = BitVec.ofNat 32 (imm.toNat * 2 ^ n) := by
  apply BitVec.eq_of_toNat_eq
  rw [zext32_eq_zeroExtended, zeroExtended, BitVec.toNat_shiftLeft, Nat.shiftLeft_eq,
    BitVec.toNat_ofNat, BitVec.toNat_ofNat, Nat.mod_mul_mod]

/-- Settles O14: lui's next state is the write to rt of the shifted immediate; the shift amount is the
number of the immediate's bits 10 to 6. -/
theorem luiShiftsByItsOwnBits : Obligations.LuiShiftsByItsOwnBits := by
  unfold Obligations.LuiShiftsByItsOwnBits
  refine ⟨and_opcodeMask_eq_iff (k := .lui) (fun _ _ _ => rfl) (fun _ _ _ => rfl), fun _ _ => rfl,
    fun rs rt imm s => ⟨_, execLui_eq rs rt imm s, ?_⟩⟩
  have hshift : (imm.extractLsb' 6 5).toNat = imm.toNat / 2 ^ 6 % 2 ^ 5 := by
    rw [BitVec.extractLsb'_toNat, Nat.shiftRight_eq_div_pow]
  rw [← hshift, ← zext32_shiftLeft]
  exact writesRegister_writeReg s rt _

end Sys2Proof.Machine
end

section
/-! PROOFS. The memory operations lw, sw (43_memory_ops.md): their words, their control row, and the
register or the data-memory word they write. -/

namespace Sys2Proof.Machine

open Sys2Proof.Spec

/-- A store and the advanced PC change what `WritesData` names, and nothing else (R109, R112). -/
theorem writesData_writeData (s : State) (a : Nat) (v : Word) :
    WritesData s { s.writeData a v with pc := s.pc + 1 } a v where
  pc := rfl
  data b := by rw [readData_setPc, readData_writeData]
  wd b := wd_writeData s a b v
  reg _ := rfl
  wr _ := rfl
  imem := rfl
  params := rfl

/-- Settles O15: lw's next state is the write of the address sum itself to rt. -/
theorem lwWritesTheAddressSum : Obligations.LwWritesTheAddressSum := by
  unfold Obligations.LwWritesTheAddressSum
  refine ⟨and_opcodeMask_eq_iff (k := .lw) (fun _ _ _ => rfl) (fun _ _ _ => rfl), fun _ _ => rfl,
    fun rs rt imm s => ⟨_, execLw_eq rs rt imm s, ?_⟩⟩
  rw [← sext32_eq_signExtended]
  exact writesRegister_writeReg s rt _

/-- Settles O16: sw's next state is the store of the sum at the number of the rt field. -/
theorem swStoresTheSumAtItsRtField : Obligations.SwStoresTheSumAtItsRtField := by
  unfold Obligations.SwStoresTheSumAtItsRtField
  refine ⟨and_opcodeMask_eq_iff (k := .sw) (fun _ _ _ => rfl) (fun _ _ _ => rfl), fun _ _ => rfl,
    fun rs rt imm s => ⟨_, execSw_eq rs rt imm s, ?_⟩⟩
  rw [← sext32_eq_signExtended]
  exact writesData_writeData s rt.toNat _

end Sys2Proof.Machine
end

section
/-! PROOFS. The branch beq (44_branch.md): its words, its control row, and the PC it leads to. -/

namespace Sys2Proof.Machine

open Sys2Proof.Spec

/-- Settles O17: beq's next state is the state with its PC replaced, taken or not. -/
theorem beqBranchesOnEqualRegisters : Obligations.BeqBranchesOnEqualRegisters := by
  unfold Obligations.BeqBranchesOnEqualRegisters
  refine ⟨and_opcodeMask_eq_iff (k := .beq) (fun _ _ _ => rfl) (fun _ _ _ => rfl), fun _ _ => rfl,
    fun rs rt imm s => ⟨_, execBeq_eq rs rt imm s, ?_⟩⟩
  rw [← sext32_eq_signExtended]
  exact writesOnlyPc_setPc s _

end Sys2Proof.Machine
end

section
/-! PROOFS. The words that select no row (45_inert.md): which they are, by the numbers of their codes,
their control row, and that they only advance the PC. -/

namespace Sys2Proof.Machine

open Sys2Proof.Spec

/-- A word is inert exactly where the numbers of its codes select no row (R160, "Encoding"). -/
theorem decode_inert_iff_codes (w : Word) :
    (∃ f, decode w = .inert f) ↔
      field w 26 6 ∉ [0x00, 0x04, 0x08, 0x0F, 0x23, 0x2B] ∨
        field w 26 6 = 0x00 ∧ field w 0 6 ∉ [0x20, 0x24, 0x2A] := by
  obtain ⟨hop, -, -, -, -, hfn, -, -⟩ := decodedFieldsAreTheirBits w
  rw [decode_inert_iff, selectsNoRow_iff, or_comm, ← hop, ← hfn]
  simp [← BitVec.toNat_inj]

/-- The ControlUnit gives an inert word the all-zero row (R86, R160). -/
theorem controlUnit_of_decode_inert (p : Params) {w : Word} {f : Fields} (h : decode w = .inert f) :
    controlUnit p (decodeFields w).opcode (decodeFields w).functionCode = rowInert :=
  calc controlUnit p (decodeFields w).opcode (decodeFields w).functionCode
    _ = rowOf p (decode w) := (rowOf_selectInstr p _).symm
    _ = rowInert := by rw [h, rowOf]

/-- An inert instruction completes and advances the PC by one, whatever its fields (R160). -/
theorem exec_inert_writesOnlyPc (f : Fields) (s : State) :
    ∃ t, exec (.inert f) s = .next t ∧ WritesOnlyPc s t (s.pc + 1) :=
  ⟨_, execInert_eq f s, writesOnlyPc_setPc s _⟩

/-- Settles O18, clause by clause: the codes, the control row, and the effect of an inert word. -/
theorem inertOnlyAdvancesPc : Obligations.InertOnlyAdvancesPc := by
  unfold Obligations.InertOnlyAdvancesPc
  exact ⟨fun w => (decode_inert_iff_codes w).symm,
    fun p _ ⟨_, hf⟩ => controlUnit_of_decode_inert p hf, exec_inert_writesOnlyPc⟩

/-- Settles O19: no code of R161's list is one that R64 gives to a row, so that each of the words is
inert. -/
theorem mipsWordsAreInert : Obligations.MipsWordsAreInert := by
  unfold Obligations.MipsWordsAreInert
  intro w s h
  have hfn : ∀ n ∈ [0x00, 0x02, 0x08, 0x0C, 0x0D, 0x21, 0x22, 0x25, 0x2B],
      n ∉ [0x20, 0x24, 0x2A] := by decide
  have hop : ∀ n ∈ [0x02, 0x03, 0x05, 0x09, 0x0C, 0x0D, 0x0A, 0x10, 0x20, 0x28],
      n ∉ [0x00, 0x04, 0x08, 0x0F, 0x23, 0x2B] := by decide
  have hinert : ∃ f, decode w = .inert f := by
    refine (decode_inert_iff_codes w).mpr ?_
    rcases h with ⟨hzero, hmem⟩ | hmem
    · exact .inr ⟨hzero, hfn _ hmem⟩
    · exact .inl (hop _ hmem)
  obtain ⟨f, hf⟩ := hinert
  rw [hf]
  exact exec_inert_writesOnlyPc f s

end Sys2Proof.Machine
end

section
/-! PROOFS. Which launches setup refuses: each of its stages accepts exactly what is in range. -/

namespace Sys2Proof.Machine

/-- A check that does not refuse accepts. -/
theorem not_exists_error_iff {ε α : Type} {x : Except ε α} :
    (¬∃ e, x = .error e) ↔ ∃ a, x = .ok a := by
  cases x <;> simp

/-! ### What each stage accepts -/

theorem parseProgram_accepts_iff {k : Nat} {ts : List (List Char)} :
    (∃ ws, parseProgram k ts = .ok ws) ↔ ∀ t ∈ ts, ∃ w, parseWordText t = .ok w := by
  have hmap : (∃ ws, parseProgram k ts = .ok ws) ↔
      ts.map parseWordText ∈ Set.range (List.map (Except.ok (ε := TextReject) (α := Word))) :=
    exists_congr fun ws => ⟨fun h => (parseProgram_ok h).symm, fun h => parseProgram_of_parse h.symm⟩
  rw [hmap, Set.range_list_map, Set.mem_ofPred_eq, List.forall_mem_map]
  exact forall₂_congr fun t _ => exists_congr fun w => eq_comm

theorem loadProgram_accepts_iff {ts : List (List Char)} :
    (∃ ws, loadProgram ts = .ok ws) ↔ ts ≠ [] ∧ ∀ t ∈ ts, ∃ w, parseWordText t = .ok w := by
  unfold loadProgram
  split_ifs with hnil
  · simp [hnil]
  · rw [parseProgram_accepts_iff, and_iff_right hnil]

theorem injectReg_accepts_iff {s : State} {i v : Nat} :
    (∃ t, injectReg s i v = .ok t) ↔ i < 32 ∧ v < 2 ^ 32 := by
  constructor
  · rintro ⟨t, h⟩
    obtain ⟨hi, hv, -⟩ := injectReg_ok h
    exact ⟨hi, hv⟩
  · rintro ⟨hi, hv⟩
    exact ⟨_, by rw [injectReg, dif_pos hi, if_pos hv]⟩

theorem injectData_accepts_iff {s : State} {a v : Nat} :
    (∃ t, injectData s a v = .ok t) ↔ a < 2 ^ s.params.dmemAddrWidth.val ∧ v < 2 ^ 32 := by
  constructor
  · rintro ⟨t, h⟩
    obtain ⟨ha, hv, -⟩ := injectData_ok h
    exact ⟨ha, hv⟩
  · rintro ⟨ha, hv⟩
    exact ⟨_, by rw [injectData, if_pos ha, if_pos hv]⟩

/-- A list of injections is accepted exactly where each of them is in range, if the range depends on
nothing but what every accepted injection keeps. -/
theorem injectAll_accepts_iff {inject : State → Nat → Nat → Except Refusal State}
    {P : State → Prop} {InRange : Nat → Nat → Prop}
    (keep : ∀ s k v t, P s → inject s k v = .ok t → P t)
    (accepts : ∀ s k v, P s → ((∃ t, inject s k v = .ok t) ↔ InRange k v))
    (l : List (Nat × Nat)) {s : State} (hs : P s) :
    (∃ t, injectAll inject s l = .ok t) ↔ ∀ e ∈ l, InRange e.1 e.2 := by
  induction l generalizing s with
  | nil => simp [injectAll]
  | cons e l ih =>
    obtain ⟨k, v⟩ := e
    rw [List.forall_mem_cons, ← accepts s k v hs]
    constructor
    · rintro ⟨t, h⟩
      obtain ⟨u, hu, ht⟩ := injectAll_cons h
      exact ⟨⟨u, hu⟩, (ih (keep _ _ _ _ hs hu)).mp ⟨t, ht⟩⟩
    · rintro ⟨⟨u, hu⟩, hl⟩
      obtain ⟨t, ht⟩ := (ih (keep _ _ _ _ hs hu)).mpr hl
      exact ⟨t, by simp only [injectAll, hu, ht]⟩

theorem injectAll_injectReg_accepts_iff (s : State) (l : List (Nat × Nat)) :
    (∃ t, injectAll injectReg s l = .ok t) ↔ ∀ e ∈ l, e.1 < 32 ∧ e.2 < 2 ^ 32 :=
  injectAll_accepts_iff (P := fun _ => True) (InRange := fun i v => i < 32 ∧ v < 2 ^ 32)
    (fun _ _ _ _ _ _ => trivial) (fun _ _ _ _ => injectReg_accepts_iff) l trivial

theorem injectReg_params {s t : State} {i v : Nat} (h : injectReg s i v = .ok t) :
    t.params = s.params := by
  obtain ⟨_, -, rfl⟩ := injectReg_ok h
  rfl

theorem injectData_params {s t : State} {a v : Nat} (h : injectData s a v = .ok t) :
    t.params = s.params := by
  obtain ⟨-, -, rfl⟩ := injectData_ok h
  exact writeData_params ..

theorem injectAll_injectData_accepts_iff (s : State) (l : List (Nat × Nat)) :
    (∃ t, injectAll injectData s l = .ok t) ↔
      ∀ e ∈ l, e.1 < 2 ^ s.params.dmemAddrWidth.val ∧ e.2 < 2 ^ 32 :=
  injectAll_accepts_iff (P := fun u => u.params = s.params)
    (InRange := fun a v => a < 2 ^ s.params.dmemAddrWidth.val ∧ v < 2 ^ 32)
    (fun _ _ _ _ hu h => (injectData_params h).trans hu)
    (fun _ _ _ hu => hu ▸ injectData_accepts_iff) l rfl

/-! ### Setup -/

/-- The register injections leave the launch's parameters in the state. -/
theorem injectAll_initialState_params {p : Params} {imem : List Word} {l : List (Nat × Nat)}
    {s : State} (h : injectAll injectReg (initialState p imem) l = .ok s) : s.params = p :=
  injectAll_induction (P := fun s => s.params = p)
    (fun _ _ _ _ hs ht => (injectReg_params ht).trans hs) l rfl h

/-- Setup has no other outcome than a refusal and a state (60_exceptions.md R184). -/
theorem setup_refused_or_next (l : Launch) :
    (∃ r, setup l = .refused r) ∨ ∃ s, setup l = .next s := by
  unfold setup
  split
  · exact .inl ⟨_, rfl⟩
  · split
    · exact .inl ⟨_, rfl⟩
    · split
      · exact .inl ⟨_, rfl⟩
      · exact .inr ⟨_, rfl⟩

/-- Setup gives a state exactly where the program loads and every injection is in range. -/
theorem setup_accepts_iff (l : Launch) :
    (∃ s, setup l = .next s) ↔
      (l.program ≠ [] ∧ ∀ text ∈ l.program, ∃ w, parseWordText text = .ok w) ∧
      (∀ e ∈ l.regInit, e.1 < 32 ∧ e.2 < 2 ^ 32) ∧
      ∀ e ∈ l.dataInit, e.1 < 2 ^ l.params.dmemAddrWidth.val ∧ e.2 < 2 ^ 32 := by
  rw [← loadProgram_accepts_iff]
  constructor
  · rintro ⟨s, h⟩
    obtain ⟨imem, s₁, hl, hr, hd⟩ := setup_next h
    refine ⟨⟨imem, hl⟩, (injectAll_injectReg_accepts_iff _ _).mp ⟨s₁, hr⟩, ?_⟩
    rw [← injectAll_initialState_params hr]
    exact (injectAll_injectData_accepts_iff _ _).mp ⟨s, hd⟩
  · rintro ⟨⟨imem, hl⟩, hreg, hdata⟩
    obtain ⟨s₁, hr⟩ := (injectAll_injectReg_accepts_iff (initialState l.params imem) _).mpr hreg
    rw [← injectAll_initialState_params hr] at hdata
    obtain ⟨s, hd⟩ := (injectAll_injectData_accepts_iff _ _).mpr hdata
    exact ⟨s, by simp only [setup, hl, hr, hd]⟩

/-- Settles O38: the accepted launches are those that are not bad, and every other is refused, since
setup never faults. -/
theorem setupRefusesExactlyBadLaunches : Obligations.SetupRefusesExactlyBadLaunches := by
  unfold Obligations.SetupRefusesExactlyBadLaunches
  intro l bad
  have hgood : (∃ s, setup l = .next s) ↔ ¬bad := by
    rw [setup_accepts_iff]
    simp only [bad, ← not_exists_error_iff, not_or, not_exists, not_and, not_le, ne_eq, and_assoc]
  exact ⟨fun hbad => (setup_refused_or_next l).resolve_right fun h => hgood.mp h hbad, hgood.mpr⟩

end Sys2Proof.Machine
end

section
/-! PROOFS. The program under one instruction, what the snapshot lists, and the text of a word
(70_reset_and_hazards.md R191, R198, R202). -/

namespace Sys2Proof.Machine

/-- Settles O29: every instruction is one cycle of the datapath, and no cycle writes instruction memory. -/
theorem noInstrWritesTheProgram : Obligations.NoInstrWritesTheProgram := by
  unfold Obligations.NoInstrWritesTheProgram
  intro i s t h
  rw [exec_eq_cycle] at h
  cases h
  exact cycle_imem _ _ _

/-- The snapshot's registers are those of WR, each with the value a read of it gives (R198). -/
theorem mem_inspect_regs_iff (s : State) (i : Nat) (v : Word) :
    (i, v) ∈ (inspect s).regs ↔
      ∃ r : RegIdx, r.toNat = i ∧ s.regWritten r = true ∧ v = s.readReg r := by
  constructor
  · intro h
    obtain ⟨j, hj, hpair⟩ := List.mem_map.mp h
    obtain ⟨hlt, hwr⟩ := List.mem_filter.mp hj
    cases hpair
    exact ⟨BitVec.ofNat 5 i, Nat.mod_eq_of_lt (List.mem_range.mp hlt), hwr, rfl⟩
  · rintro ⟨r, rfl, hwr, rfl⟩
    exact mem_inspect_regs hwr

/-- The snapshot's data words are those of WD, each with the value a read of it gives (R198). -/
theorem mem_inspect_data_iff (s : State) (a : Nat) (v : Word) :
    (a, v) ∈ (inspect s).data ↔ a ∈ s.wd ∧ v = s.readData a := by
  constructor
  · intro h
    obtain ⟨b, hb, hpair⟩ := List.mem_map.mp h
    cases hpair
    exact ⟨hb, rfl⟩
  · rintro ⟨ha, rfl⟩
    exact mem_inspect_data ha

/-- Settles O42, by the membership in each of the snapshot's two lists. -/
theorem snapshotListsExactlyTheWritten : Obligations.SnapshotListsExactlyTheWritten := by
  unfold Obligations.SnapshotListsExactlyTheWritten
  exact fun s => ⟨mem_inspect_regs_iff s, mem_inspect_data_iff s⟩

/-- Settles O44: the eight digits have the word's value, as `parseWordText_wordText` shows. -/
theorem wordTextIsReadBack : Obligations.WordTextIsReadBack := by
  unfold Obligations.WordTextIsReadBack
  exact parseWordText_wordText

end Sys2Proof.Machine
end
